-- ==== Sys2Proof/Word.lean ====
section
/-!
DEFINITION. The words of the machine: the bit vectors the spec treats as bits, and the memory image as plain data
(00_scope.md R7, R8; 20_memory.md R60).
-/

namespace Sys2Proof

/-- One 8-bit byte of memory (10_state.md R40). -/
abbrev Byte := BitVec 8

/-- A 32-bit word: a register, the pc, an address, an instruction (00_scope.md R7 `XLEN`, R8). Bit 31 is the most
significant. `+`, `-` and `<<<` are modulo `2^32`. -/
abbrev Word := BitVec 32

/-- The number of a general register, 0 to 31 (00_scope.md R7 `NREG`; 30_encoding.md R97). -/
abbrev RegIx := BitVec 5

/-- A shift amount, 0 to 31 (30_encoding.md R102). -/
abbrev Shamt := BitVec 5

/-- The 16-bit immediate field of the I-format (30_encoding.md R92). -/
abbrev Imm16 := BitVec 16

/-- The 26-bit target field of the J-format (30_encoding.md R93). -/
abbrev Target26 := BitVec 26

/-- A memory image: the listed bytes by address. What an unlisted address reads as, and the one canonical form, are in
Machine/Memory.lean. -/
abbrev Memory := List Host.Cell

end Sys2Proof
end

