-- ==== Sys2Proof/Machine/Flags.lean ====
section
/-!
DEFINITION. The core has no flag (10_state.md R37): a comparison writes 0 or 1 into a general register, and a branch
compares two registers directly. These are those comparisons.
-/

namespace Sys2Proof.Machine

/-- The signed comparison of `slt` and `slti`: of the signed values, not of a wrapped difference (41_alu_register.md
R165). -/
def lessSigned (a b : Word) : Bool := decide (a.toInt < b.toInt)

/-- The word a comparison writes: `0x00000001` or `0x00000000` (41_alu_register.md R165). -/
def truthWord (c : Bool) : Word := if c then 1#32 else 0#32

end Sys2Proof.Machine
end

