-- ==== Sys2Proof/Machine/Operands.lean ====
section
/-!
DEFINITION. The values Execute computes from operands that are already words: the shifts, the effective address and the
transfer targets. Sums, differences and the bitwise operations are those of `Word` itself (00_scope.md R8).
-/

namespace Sys2Proof.Machine

/-- `v << s`: zeros enter at the bottom (41_alu_register.md R166). -/
def shiftLeft (v : Word) (shamt : Shamt) : Word := v <<< shamt.toNat

/-- `v >>u s`: zeros enter at the top (41_alu_register.md R167). -/
def shiftRightLogical (v : Word) (shamt : Shamt) : Word := v >>> shamt.toNat

/-- `v >>s s`: copies of bit 31 enter at the top (41_alu_register.md R168). -/
def shiftRightArith (v : Word) (shamt : Shamt) : Word := v.sshiftRight shamt.toNat

/-- `sext_32` of the immediate field (00_scope.md R8). -/
def signExtended (imm : Imm16) : Word := imm.signExtend 32

/-- `zext_32` of the immediate field (00_scope.md R8). -/
def zeroExtended (imm : Imm16) : Word := imm.zeroExtend 32

/-- The effective address of `lw` and `sw`, modulo `2^32` (43_load_store.md R192). -/
def effectiveAddress (base imm : Word) : Word := base + imm

/-- The target of `beq` and `bne`, modulo `2^32` (44_branch_jump.md R200). -/
def branchTarget (npc imm : Word) : Word := npc + (imm <<< 2)

/-- The target of `j` and `jal`: `npc[31:28] : target : 00` (30_encoding.md R100; 90_conflicts.md C2). -/
def jumpTarget (npc : Word) (target : Target26) : Word := (npc &&& 0xF0000000#32) ||| (target.zeroExtend 32 <<< 2)

end Sys2Proof.Machine
end

