-- ==== Sys2Proof/Config.lean ====
section
/-!
DEFINITION. What an implementation of the core fixes: the OPEN parameters of 00_scope.md R7, the link register's
number, and which of the spec's two machines a state is run by (00_scope.md R11).
-/

namespace Sys2Proof

/-- `LINK_REG`: the register `jal` writes (00_scope.md R7; 92_eei_decisions.md D9). -/
def linkReg : RegIx := 31#5

/-- The OPEN parameters of 00_scope.md R7. They do not change after reset (10_state.md R30). The fixed ones (`XLEN`,
`NREG`, `ILEN`, `WORD`) are in the types and in the step of 4 bytes. -/
structure Params where
  /-- `MEM_SIZE`, the size of the memory image in bytes. -/
  memSize : Nat
  /-- `MEM_INIT`, the bytes of the image at reset: the listed ones, and zero at every other address. Every contents of
  `MEM_SIZE` bytes is exactly one such list in canonical form. -/
  memInit : Memory
  /-- `RESET_PC`, the pc at reset. -/
  resetPc : Word
  /-- `GPR_INIT`, registers 1 to 31 at reset; register `i` is at index `i - 1`. -/
  gprInit : Vector Word 31
  /-- `FETCH_END`, the byte address of the end of the loaded program. -/
  fetchEnd : Nat
deriving DecidableEq, Repr

/-- DESIGN CHOICE (assumption log 1 and 2; unsafe): the parameter values behind `State.reset`. The spec leaves all five
OPEN. `RESET_PC = 0` and `FETCH_END = MEM_SIZE` are its defaults; `MEM_SIZE = 2^32` covers the whole address space;
registers and memory are zero. -/
def Params.standard : Params where
  memSize := 4294967296
  memInit := []
  resetPc := 0
  gprInit := Vector.replicate 31 0
  fetchEnd := 4294967296

/-- The level of the model (00_scope.md R11, 92_eei_decisions.md D29): the spec gives two machines over one
architectural state. -/
inductive Level where
  /-- The cycle-level machine, one tick a step (40_pipeline_stages.md R140): the normative one. -/
  | cycle
  /-- The sequential machine `Seq`, one instruction a step (70_reset_and_hazards.md R284). -/
  | sequential
deriving DecidableEq, Repr

end Sys2Proof
end

