-- ==== Sys2Proof/Syntax.lean ====
section
/-!
DEFINITION. The twenty instructions, one constructor per row of spec/opcode_table.json in the table's order, each with
exactly the fields its format gives it (10_state.md R52), and the decoded operation that the ID/EX latch carries.
-/

namespace Sys2Proof

/-- The twenty instructions (00_scope.md R2; 10_state.md R52). -/
inductive Instr where
  | sll  (rt rd : RegIx) (shamt : Shamt)
  | srl  (rt rd : RegIx) (shamt : Shamt)
  | sra  (rt rd : RegIx) (shamt : Shamt)
  | jr   (rs : RegIx)
  | add  (rs rt rd : RegIx)
  | sub  (rs rt rd : RegIx)
  | and  (rs rt rd : RegIx)
  | or   (rs rt rd : RegIx)
  | nor  (rs rt rd : RegIx)
  | slt  (rs rt rd : RegIx)
  | beq  (rs rt : RegIx) (imm : Imm16)
  | bne  (rs rt : RegIx) (imm : Imm16)
  | addi (rs rt : RegIx) (imm : Imm16)
  | slti (rs rt : RegIx) (imm : Imm16)
  | andi (rs rt : RegIx) (imm : Imm16)
  | ori  (rs rt : RegIx) (imm : Imm16)
  | lw   (rs rt : RegIx) (imm : Imm16)
  | sw   (rs rt : RegIx) (imm : Imm16)
  | j    (target : Target26)
  | jal  (target : Target26)
deriving DecidableEq, Repr

/-- The decoded operation: the spec's type `Instr` of 10_state.md R52, which has one variant more than the twenty
instructions. -/
inductive Op where
  /-- One of the twenty instructions. -/
  | instr (i : Instr)
  /-- `ILLEGAL`: an unsupported encoding, with its raw word (30_encoding.md R107). -/
  | illegal (word : Word)
deriving DecidableEq, Repr

/-- The three formats (30_encoding.md R90). -/
inductive Format where
  | r | i | j
deriving DecidableEq, Repr

/-- The format of each instruction (00_scope.md R2). -/
def Instr.format : Instr → Format
  | .sll .. | .srl .. | .sra .. | .jr .. | .add .. | .sub .. | .and .. | .or .. | .nor .. | .slt .. => .r
  | .beq .. | .bne .. | .addi .. | .slti .. | .andi .. | .ori .. | .lw .. | .sw .. => .i
  | .j .. | .jal .. => .j

end Sys2Proof
end

