-- ==== Sys2Proof/Decode.lean ====
section
/-!
DEFINITION. The decoder (30_encoding.md): the fields of a word, the format multiplexer, the decoding function, the
destination and source registers, the extended immediate; then the encoder, the opcode table's rows, and the
assembler's operand fields.
-/

namespace Sys2Proof

/-! ### Fields of a word (30_encoding.md R91 to R93) -/

/-- `ir[31:26]`. -/
def opcodeOf (w : Word) : BitVec 6 := w.extractLsb' 26 6
/-- `ir[25:21]`, read as a register number whatever the format (R105). -/
def rsOf (w : Word) : RegIx := w.extractLsb' 21 5
/-- `ir[20:16]`, read as a register number whatever the format (R105). -/
def rtOf (w : Word) : RegIx := w.extractLsb' 16 5
/-- `ir[15:11]`. -/
def rdOf (w : Word) : RegIx := w.extractLsb' 11 5
/-- `ir[10:6]`. -/
def shamtOf (w : Word) : Shamt := w.extractLsb' 6 5
/-- `ir[5:0]`. -/
def functOf (w : Word) : BitVec 6 := w.extractLsb' 0 6
/-- `ir[15:0]`. -/
def imm16Of (w : Word) : Imm16 := w.extractLsb' 0 16
/-- `ir[25:0]`. -/
def targetOf (w : Word) : Target26 := w.extractLsb' 0 26

/-! ### The decoding function (30_encoding.md R94 to R96, R103) -/

/-- The format multiplexer: the format of a word that is not an unsupported encoding by its opcode (R94). -/
def formatOf (w : Word) : Option Format :=
  if opcodeOf w = 0x00 then some .r
  else if opcodeOf w = 0x02 ∨ opcodeOf w = 0x03 then some .j
  else if opcodeOf w ∈ [0x04, 0x05, 0x08, 0x0A, 0x0C, 0x0D, 0x23, 0x2B] then some .i
  else none

/-- The R-format: the operation is selected by `funct` alone (R96); the fields an instruction does not use are ignored
(R106). -/
def decodeFunct (w : Word) : Op :=
  if functOf w = 0x00 then .instr (.sll (rtOf w) (rdOf w) (shamtOf w))
  else if functOf w = 0x02 then .instr (.srl (rtOf w) (rdOf w) (shamtOf w))
  else if functOf w = 0x03 then .instr (.sra (rtOf w) (rdOf w) (shamtOf w))
  else if functOf w = 0x08 then .instr (.jr (rsOf w))
  else if functOf w = 0x20 then .instr (.add (rsOf w) (rtOf w) (rdOf w))
  else if functOf w = 0x22 then .instr (.sub (rsOf w) (rtOf w) (rdOf w))
  else if functOf w = 0x24 then .instr (.and (rsOf w) (rtOf w) (rdOf w))
  else if functOf w = 0x25 then .instr (.or (rsOf w) (rtOf w) (rdOf w))
  else if functOf w = 0x27 then .instr (.nor (rsOf w) (rtOf w) (rdOf w))
  else if functOf w = 0x2A then .instr (.slt (rsOf w) (rtOf w) (rdOf w))
  else .illegal w

/-- The decoding function, total on words (R103); the opcode values are those of R95. -/
def decode (w : Word) : Op :=
  if opcodeOf w = 0x00 then decodeFunct w
  else if opcodeOf w = 0x02 then .instr (.j (targetOf w))
  else if opcodeOf w = 0x03 then .instr (.jal (targetOf w))
  else if opcodeOf w = 0x04 then .instr (.beq (rsOf w) (rtOf w) (imm16Of w))
  else if opcodeOf w = 0x05 then .instr (.bne (rsOf w) (rtOf w) (imm16Of w))
  else if opcodeOf w = 0x08 then .instr (.addi (rsOf w) (rtOf w) (imm16Of w))
  else if opcodeOf w = 0x0A then .instr (.slti (rsOf w) (rtOf w) (imm16Of w))
  else if opcodeOf w = 0x0C then .instr (.andi (rsOf w) (rtOf w) (imm16Of w))
  else if opcodeOf w = 0x0D then .instr (.ori (rsOf w) (rtOf w) (imm16Of w))
  else if opcodeOf w = 0x23 then .instr (.lw (rsOf w) (rtOf w) (imm16Of w))
  else if opcodeOf w = 0x2B then .instr (.sw (rsOf w) (rtOf w) (imm16Of w))
  else .illegal w

/-- Four bytes as one word, the first the most significant (20_memory.md R61). -/
def wordOfBytes (b0 b1 b2 b3 : Byte) : Word :=
  b0.zeroExtend 32 <<< 24 ||| b1.zeroExtend 32 <<< 16 ||| b2.zeroExtend 32 <<< 8 ||| b3.zeroExtend 32

/-- Byte `i` of a word, byte 0 the most significant: `v[31:24]`, `v[23:16]`, `v[15:8]`, `v[7:0]` (20_memory.md R62). -/
def byteOfWord (v : Word) (i : Nat) : Byte := v.extractLsb' (24 - 8 * i) 8

/-- Why some bytes are no instruction. -/
inductive DecodeError where
  /-- Fewer than the four bytes of an instruction (30_encoding.md R90). -/
  | truncated
  /-- An opcode or funct value outside the supported instruction set (30_encoding.md R107). -/
  | unsupported (word : Word)
deriving DecidableEq, Repr

/-- One instruction from bytes in address order, with the bytes after it: big-endian (20_memory.md R61). -/
def decodeBytes : List Byte → Except DecodeError (Instr × List Byte)
  | b0 :: b1 :: b2 :: b3 :: rest =>
    match decode (wordOfBytes b0 b1 b2 b3) with
    | .instr i => .ok (i, rest)
    | .illegal w => .error (.unsupported w)
  | _ => .error .truncated

/-! ### What Decode derives from the operation and the word -/

/-- The extended immediate: zero-extended for `andi` and `ori`, sign-extended for every other word (R101). -/
def immOf (op : Op) (w : Word) : Word :=
  match op with
  | .instr (.andi ..) | .instr (.ori ..) => (imm16Of w).zeroExtend 32
  | _ => (imm16Of w).signExtend 32

/-- Destination-register selection; 0 means that the instruction writes no register (R104). -/
def destOf : Op → RegIx
  | .instr i =>
    match i with
    | .sll _ rd _ | .srl _ rd _ | .sra _ rd _ => rd
    | .add _ _ rd | .sub _ _ rd | .and _ _ rd | .or _ _ rd | .nor _ _ rd | .slt _ _ rd => rd
    | .addi _ rt _ | .andi _ rt _ | .ori _ rt _ | .slti _ rt _ | .lw _ rt _ => rt
    | .jal _ => linkReg
    | .sw .. | .beq .. | .bne .. | .j _ | .jr _ => 0#5
  | .illegal _ => 0#5

/-- `srcs(ir)`: both register fields of every R-format and I-format instruction, used or not; none for `j`, `jal` and
unsupported words (45_hazard_unit.md R220). -/
def srcsOf (w : Word) : List RegIx :=
  match decode w with
  | .instr i => if i.format = .j then [] else [rsOf w, rtOf w]
  | .illegal _ => []

/-! ### The encoder -/

/-- A field's bits placed from bit `k` of a word on. -/
def placed (n : Nat) (v : BitVec n) (k : Nat) : Word := v.zeroExtend 32 <<< k

/-- A word of the R-format, opcode 0 (R91). -/
def encodeR (rs rt rd : RegIx) (shamt : Shamt) (funct : BitVec 6) : Word :=
  placed 5 rs 21 ||| placed 5 rt 16 ||| placed 5 rd 11 ||| placed 5 shamt 6 ||| placed 6 funct 0

/-- A word of the I-format (R92). -/
def encodeI (opcode : BitVec 6) (rs rt : RegIx) (imm : Imm16) : Word :=
  placed 6 opcode 26 ||| placed 5 rs 21 ||| placed 5 rt 16 ||| placed 16 imm 0

/-- A word of the J-format (R93). -/
def encodeJ (opcode : BitVec 6) (target : Target26) : Word := placed 6 opcode 26 ||| placed 26 target 0

/-- The word of an instruction, with zeros in the fields it does not use, as an assembler writes them (R111). -/
def encode : Instr → Word
  | .sll rt rd shamt => encodeR 0 rt rd shamt 0x00
  | .srl rt rd shamt => encodeR 0 rt rd shamt 0x02
  | .sra rt rd shamt => encodeR 0 rt rd shamt 0x03
  | .jr rs => encodeR rs 0 0 0 0x08
  | .add rs rt rd => encodeR rs rt rd 0 0x20
  | .sub rs rt rd => encodeR rs rt rd 0 0x22
  | .and rs rt rd => encodeR rs rt rd 0 0x24
  | .or rs rt rd => encodeR rs rt rd 0 0x25
  | .nor rs rt rd => encodeR rs rt rd 0 0x27
  | .slt rs rt rd => encodeR rs rt rd 0 0x2A
  | .beq rs rt imm => encodeI 0x04 rs rt imm
  | .bne rs rt imm => encodeI 0x05 rs rt imm
  | .addi rs rt imm => encodeI 0x08 rs rt imm
  | .slti rs rt imm => encodeI 0x0A rs rt imm
  | .andi rs rt imm => encodeI 0x0C rs rt imm
  | .ori rs rt imm => encodeI 0x0D rs rt imm
  | .lw rs rt imm => encodeI 0x23 rs rt imm
  | .sw rs rt imm => encodeI 0x2B rs rt imm
  | .j target => encodeJ 0x02 target
  | .jal target => encodeJ 0x03 target

/-- The no-op of the assembler, the all-zero word `sll $zero, $zero, 0` (R110, R112). -/
def nop : Instr := .sll 0 0 0

/-! ### The opcode table -/

/-- A row of the opcode table: a word `w` is the instruction exactly when `w and mask = pattern`. -/
structure TableRow where
  pattern : Word
  mask : Word
deriving DecidableEq, Repr

/-- The row of spec/opcode_table.json that each instruction belongs to. -/
def Instr.row : Instr → TableRow
  | .sll .. => ⟨0x00000000, 0xFC00003F⟩
  | .srl .. => ⟨0x00000002, 0xFC00003F⟩
  | .sra .. => ⟨0x00000003, 0xFC00003F⟩
  | .jr .. => ⟨0x00000008, 0xFC00003F⟩
  | .add .. => ⟨0x00000020, 0xFC00003F⟩
  | .sub .. => ⟨0x00000022, 0xFC00003F⟩
  | .and .. => ⟨0x00000024, 0xFC00003F⟩
  | .or .. => ⟨0x00000025, 0xFC00003F⟩
  | .nor .. => ⟨0x00000027, 0xFC00003F⟩
  | .slt .. => ⟨0x0000002A, 0xFC00003F⟩
  | .beq .. => ⟨0x10000000, 0xFC000000⟩
  | .bne .. => ⟨0x14000000, 0xFC000000⟩
  | .addi .. => ⟨0x20000000, 0xFC000000⟩
  | .slti .. => ⟨0x28000000, 0xFC000000⟩
  | .andi .. => ⟨0x30000000, 0xFC000000⟩
  | .ori .. => ⟨0x34000000, 0xFC000000⟩
  | .lw .. => ⟨0x8C000000, 0xFC000000⟩
  | .sw .. => ⟨0xAC000000, 0xFC000000⟩
  | .j .. => ⟨0x08000000, 0xFC000000⟩
  | .jal .. => ⟨0x0C000000, 0xFC000000⟩

/-- A word lies in a row of the opcode table. -/
def TableRow.holds (r : TableRow) (w : Word) : Bool := decide (w &&& r.mask = r.pattern)

/-! ### The assembler's operand fields (30_encoding.md R111, 10_state.md R33) -/

/-- The signed immediate of `addi`, `slti`, `lw` and `sw`: -32768 to 32767. -/
def asmSigned (v : Int) : Option Imm16 :=
  if -32768 ≤ v ∧ v ≤ 32767 then some (BitVec.ofInt 16 v) else none

/-- The unsigned immediate of `andi` and `ori`: 0 to 65535. -/
def asmUnsigned (v : Nat) : Option Imm16 := if v ≤ 65535 then some (BitVec.ofNat 16 v) else none

/-- The offset field of a branch at address `here` to `label`: `(label - (here + 4)) / 4`, signed, where it is a whole
number of words that fits in 16 bits. -/
def asmBranch (here label : Word) : Option Imm16 :=
  let d := (label - (here + 4)).toInt
  if d % 4 = 0 then asmSigned (d / 4) else none

/-- The target field of `j` and `jal`: `label[27:2]`. -/
def asmTarget (label : Word) : Target26 := label.extractLsb' 2 26

/-- The assembler name of a register (10_state.md R33; the MIPS o32 convention). -/
def regName (r : RegIx) : String :=
  List.getD ["$zero", "$at", "$v0", "$v1", "$a0", "$a1", "$a2", "$a3", "$t0", "$t1", "$t2", "$t3", "$t4", "$t5", "$t6",
    "$t7", "$s0", "$s1", "$s2", "$s3", "$s4", "$s5", "$s6", "$s7", "$t8", "$t9", "$k0", "$k1", "$gp", "$sp", "$fp",
    "$ra"] r.toNat ""

/-! ### The host's view of the opcode table -/

/-- The instruction the decoder reads from an instruction whose bits are `w`, bit 0 the least significant of the one
32-bit word: the word is laid out most significant byte first, as the hardware stores it (20_memory.md R61). -/
def decodeTableWord (nbits w : Nat) : Option Instr :=
  let v : Word := BitVec.ofNat 32 (w % 2 ^ nbits)
  match decodeBytes [byteOfWord v 0, byteOfWord v 1, byteOfWord v 2, byteOfWord v 3] with
  | .ok (i, _) => some i
  | .error _ => none

end Sys2Proof
end

