-- ==== Sys2Proof/Machine/Memory.lean ====
section
/-!
DEFINITION. The flat byte-addressable memory as plain data: reading and writing one byte, the canonical form, and the
big-endian word built on them (10_state.md R40; 20_memory.md R60 to R62).
-/

namespace Sys2Proof.Machine

/-- What an unlisted address reads as. DESIGN CHOICE (assumption log 2; unsafe for `State.reset` only): the spec leaves
`MEM_INIT` open, and every contents can be listed. -/
def unlistedByte : Byte := 0#8

/-- One byte (10_state.md R40): the listed one, or `unlistedByte`. -/
def readByte : Memory → Nat → Byte
  | [], _ => unlistedByte
  | (k, u) :: m, a => if k = a then u else readByte m a

/-- Write one byte, keeping the canonical form: writing `unlistedByte` removes the entry. -/
def writeByte : Memory → Nat → Byte → Memory
  | [], a, v => if v = unlistedByte then [] else [(a, v)]
  | (k, u) :: m, a, v =>
    if a < k then
      if v = unlistedByte then (k, u) :: m else (a, v) :: (k, u) :: m
    else if a = k then
      if v = unlistedByte then m else (a, v) :: m
    else (k, u) :: writeByte m a v

/-- Every entry's address is at least `lo`, addresses strictly rise, and no entry equals what an unlisted address
reads as. -/
def canonicalFrom : Nat → Memory → Bool
  | _, [] => true
  | lo, (k, u) :: m => decide (lo ≤ k) && decide (u ≠ unlistedByte) && canonicalFrom (k + 1) m

end Sys2Proof.Machine

namespace Sys2Proof

/-- The one canonical form of a memory image: equal contents are equal lists. -/
def Memory.wf (m : Memory) : Bool := Machine.canonicalFrom 0 m

/-- Every listed address is below `n`: the image fits in `n` bytes. -/
def Memory.below (n : Nat) (m : Memory) : Bool := m.all fun c => decide (c.1 < n)

end Sys2Proof

namespace Sys2Proof.Machine

/-- `MemRead(addr, 4)`: big-endian, the most significant byte at the lowest address (20_memory.md R61). -/
def readWord (m : Memory) (a : Nat) : Word :=
  wordOfBytes (readByte m a) (readByte m (a + 1)) (readByte m (a + 2)) (readByte m (a + 3))

/-- `MemWrite(addr, 4, v)`: the same byte order, no other byte (20_memory.md R62). -/
def writeWord (m : Memory) (a : Nat) (v : Word) : Memory :=
  writeByte (writeByte (writeByte (writeByte m a (byteOfWord v 0)) (a + 1) (byteOfWord v 1)) (a + 2) (byteOfWord v 2))
    (a + 3) (byteOfWord v 3)

/-- Words laid out one after another from an address: how the host prepares `MEM_INIT` (70_reset_and_hazards.md
R272). -/
def writeWords : Memory → Nat → List Word → Memory
  | m, _, [] => m
  | m, a, v :: vs => writeWords (writeWord m a v) (a + 4) vs

end Sys2Proof.Machine
end

