-- ==== Sys2Proof/WellFormed.lean ====
section
/-!
DEFINITION. What is well formed. The parameters of the core carry the constraints of 00_scope.md R7; a configuration
outside them is refused (93_implementation_defined.md U10). An instruction needs no check: every field of every
constructor of `Instr` has exactly the width its format gives it (30_encoding.md R97), so no ill-formed term exists.
-/

namespace Sys2Proof

/-- `MEM_SIZE` is a multiple of 4 with `4 <= MEM_SIZE <= 2^32` (00_scope.md R7). -/
def Params.memSizeOk (p : Params) : Bool :=
  decide (p.memSize % 4 = 0) && decide (4 ≤ p.memSize) && decide (p.memSize ≤ 4294967296)

/-- `MEM_INIT` is `MEM_SIZE` bytes: canonical, and nothing listed at or beyond `MEM_SIZE` (00_scope.md R7). -/
def Params.memInitOk (p : Params) : Bool := p.memInit.wf && p.memInit.below p.memSize

/-- `RESET_PC` is a multiple of 4 (00_scope.md R7). -/
def Params.resetPcOk (p : Params) : Bool := decide (p.resetPc.toNat % 4 = 0)

/-- `FETCH_END` is a multiple of 4 with `FETCH_END <= MEM_SIZE` (00_scope.md R7). -/
def Params.fetchEndOk (p : Params) : Bool :=
  decide (p.fetchEnd % 4 = 0) && decide (p.fetchEnd ≤ p.memSize)

/-- The configurations the spec gives a behaviour for (93_implementation_defined.md U10). -/
def Params.wellFormed (p : Params) : Bool :=
  p.memSizeOk && p.memInitOk && p.resetPcOk && p.fetchEndOk

end Sys2Proof
end

