-- ==== Sys2Proof/Machine/State.lean ====
section
/-!
DEFINITION. The state of the core as plain data (10_state.md R30): general registers, pc, memory, the four interstage
latches, the halt record and the tick counter; beside them the parameters, which never change, and the level, the
model's own field. Then the reasons a step can stop, and the state after reset (70_reset_and_hazards.md R270).
-/

namespace Sys2Proof.Machine

/-- The five stages (00_scope.md R13). -/
inductive Stage where
  /-- Fetch. -/
  | IF
  /-- Decode. -/
  | ID
  /-- Execute. -/
  | EX
  /-- Memory access. -/
  | MEM
  /-- Write-back. -/
  | WB
deriving DecidableEq, Repr

/-- The memory-operation kind of the EX/MEM latch (10_state.md R43). -/
inductive MemOp where
  /-- `MEM_NONE`. -/
  | none
  /-- `MEM_LOAD`. -/
  | load
  /-- `MEM_STORE`. -/
  | store
deriving DecidableEq, Repr

/-- The IF/ID latch (10_state.md R41), with the trace fields of R46. -/
structure IfId where
  /-- The raw instruction word. -/
  ir : Word
  /-- The address of the instruction plus 4. -/
  npc : Word
  /-- Trace: the address the instruction was fetched from. -/
  tPc : Word
  /-- Trace: the raw instruction word. -/
  tIr : Word
deriving DecidableEq, Repr

/-- The ID/EX latch (10_state.md R42), with the trace fields of R46. -/
structure IdEx where
  npc : Word
  /-- Operand 1, the value of the register named by bits 25:21. -/
  a : Word
  /-- Operand 2, the value of the register named by bits 20:16. -/
  b : Word
  /-- The extended immediate. -/
  imm : Word
  /-- The register the instruction will write; 0 writes none. -/
  dest : RegIx
  /-- The decoded operation. -/
  op : Op
  tPc : Word
  tIr : Word
deriving DecidableEq, Repr

/-- The EX/MEM latch (10_state.md R43), with the trace fields of R46. -/
structure ExMem where
  npc : Word
  /-- The ALU result, effective address, return address or target. -/
  result : Word
  /-- The value a store writes. -/
  store : Word
  dest : RegIx
  memop : MemOp
  tPc : Word
  tIr : Word
deriving DecidableEq, Repr

/-- The MEM/WB latch (10_state.md R44), with the trace fields of R46. -/
structure MemWb where
  /-- The loaded word, or the ALU result passed through. -/
  value : Word
  dest : RegIx
  tPc : Word
  tIr : Word
deriving DecidableEq, Repr

/-- The causes of a halt (60_exceptions.md R241). -/
inductive HaltCause where
  /-- Code 1: an unsupported encoding in Execute (R244). -/
  | unsupported
  /-- Code 2: a misaligned or out-of-range load or store (R245). -/
  | memAccess
  /-- Code 3: reserved, never raised (R247). -/
  | hazardFailure
  /-- Code 4: a fetch from a misaligned pc (R246). -/
  | fetchMisaligned
deriving DecidableEq, Repr

/-- The diagnostic of an error: the stage, the number of the tick, and the offending instruction (60_exceptions.md
R242). -/
structure Diagnostic where
  stage : Stage
  cycle : Nat
  tPc : Word
  tIr : Word
deriving DecidableEq, Repr

/-- The halt record (10_state.md R47): the cause and the four fields of the diagnostic. -/
structure HaltRecord extends Diagnostic where
  cause : HaltCause
deriving DecidableEq, Repr

/-- Why the core stops: one constructor per cause of 60_exceptions.md R241, carrying only the halt record's diagnostic
(93_implementation_defined.md U1). -/
inductive Fault where
  /-- Raised when an unsupported encoding is in Execute (R244). Safe: the spec makes this a halt. -/
  | unsupported (d : Diagnostic)
  /-- Raised by `lw` and `sw` in Memory access at a misaligned or out-of-range address (R245). Safe: the spec makes
  this a halt. -/
  | memAccess (d : Diagnostic)
  /-- Raised by nothing; a state that already holds a halt record with the reserved cause answers with it (R247).
  Safe. -/
  | hazardFailure (d : Diagnostic)
  /-- Raised by Fetch when it is about to fetch and the pc is no multiple of 4 (R246). Safe: the spec makes this a
  halt. -/
  | fetchMisaligned (d : Diagnostic)
deriving DecidableEq, Repr

/-- Why the model gives no answer. -/
inductive Refusal where
  /-- An arm of `exec` without a meaning. No arm is: every instruction of the table has its meaning. Safe. -/
  | notModelled (mnemonic : String)
  /-- Raised by `step` when the parameters break the constraints of 00_scope.md R7: the spec says `refuse`
  (93_implementation_defined.md U10). Safe. -/
  | badParameters
deriving DecidableEq, Repr

/-- The complete state of the core (10_state.md R30). -/
structure State where
  /-- The parameters of 00_scope.md R7. Not state of the spec's: set before reset, never changed. -/
  params : Params
  /-- The MODEL's own field (assumption log 3): which of the spec's two machines `step` runs. Never changed by a step. -/
  level : Level
  /-- The general registers `x[0]` to `x[31]` (R31). Read and written only by `readReg` and `writeReg`. -/
  x : Vector Word 32
  /-- The program counter (R34). -/
  pc : Word
  /-- The memory `M` (R40). -/
  mem : Memory
  /-- The IF/ID latch; `none` is a bubble. -/
  ifid : Option IfId
  /-- The ID/EX latch; `none` is a bubble. -/
  idex : Option IdEx
  /-- The EX/MEM latch; `none` is a bubble. -/
  exmem : Option ExMem
  /-- The MEM/WB latch; `none` is a bubble. -/
  memwb : Option MemWb
  /-- The halt record; `none` while the core runs (R47). -/
  halt : Option HaltRecord
  /-- The tick counter (R48). -/
  cycle : Nat
deriving DecidableEq, Repr

/-- Register `i` at reset: 0 for register 0, `GPR_INIT[i]` for the others (70_reset_and_hazards.md R270). -/
def resetRegs (p : Params) : Vector Word 32 :=
  Vector.ofFn fun i : Fin 32 => if h : i.val = 0 then 0#32 else p.gprInit[i.val - 1]

/-- The reset state `S0` for given parameters (70_reset_and_hazards.md R270). -/
def State.resetWith (p : Params) : State where
  params := p
  level := .cycle
  x := resetRegs p
  pc := p.resetPc
  mem := p.memInit
  ifid := none
  idex := none
  exmem := none
  memwb := none
  halt := none
  cycle := 0

/-- The machine right after reset: `S0` for the standard parameters (assumption logs 1 and 2), at the normative level
(assumption log 3). -/
def State.reset : State := State.resetWith Params.standard

end Sys2Proof.Machine
end

