-- ==== Sys2Proof/Machine/Ops.lean ====
section
/-!
DEFINITION. The named operations over registers, pc and memory; raising the halt; what Execute hands on; and the
completion of one instruction by itself. Every meaning and every stage goes through these.
-/

namespace Sys2Proof.Machine

/-- The three outcomes of a step of this machine. -/
abbrev Result := Host.Outcome State Fault Refusal

/-! ### Registers and pc -/

/-- `x[i]`: register 0 reads as 0 in every state (10_state.md R31). -/
def State.readReg (s : State) (r : RegIx) : Word := if r = 0#5 then 0#32 else s.x[r.toNat]

/-- `x[i] <- v`: a write to register 0 is discarded, any other replaces all 32 bits (10_state.md R32). -/
def State.writeReg (s : State) (r : RegIx) (v : Word) : State :=
  if r = 0#5 then s else { s with x := s.x.set r.toNat v }

/-- `pc <- t` (00_scope.md R9). -/
def State.setPc (s : State) (t : Word) : State := { s with pc := t }

/-- `pc + 4` modulo `2^32`: the address of the next instruction (10_state.md R36). -/
def State.npc (s : State) : Word := s.pc + 4

/-! ### Memory -/

/-- A word address that `MemRead` and `MemWrite` are defined for: a multiple of 4, with `addr + 4 <= MEM_SIZE` in
natural numbers (20_memory.md R64, R65; 40_pipeline_stages.md R125). -/
def State.accessOk (s : State) (addr : Word) : Bool :=
  decide (addr.toNat % 4 = 0) && decide (addr.toNat + 4 ≤ s.params.memSize)

/-- `MemRead(addr, 4)` (20_memory.md R61). -/
def State.loadWord (s : State) (addr : Word) : Word := readWord s.mem addr.toNat

/-- `MemWrite(addr, 4, v)` (20_memory.md R62). -/
def State.storeWord (s : State) (addr v : Word) : State := { s with mem := writeWord s.mem addr.toNat v }

/-- Where Fetch may read: `pc + 4 <= FETCH_END` in natural numbers (20_memory.md R67). -/
def State.inFetchRange (s : State) : Bool := decide (s.pc.toNat + 4 ≤ s.params.fetchEnd)

/-- The pc is a multiple of 4 (20_memory.md R66). -/
def State.pcAligned (s : State) : Bool := decide (s.pc.toNat % 4 = 0)

/-! ### The halt: the one exception mechanism (60_exceptions.md R240, R250, R251) -/

/-- The numeric code of a cause (60_exceptions.md R241). -/
def HaltCause.code : HaltCause → Nat
  | .unsupported => 1
  | .memAccess => 2
  | .hazardFailure => 3
  | .fetchMisaligned => 4

/-- The record of a halt raised in the present tick: its number is the counter plus 1 (60_exceptions.md R242). -/
def State.haltRecord (s : State) (cause : HaltCause) (stage : Stage) (tPc tIr : Word) : HaltRecord where
  cause := cause
  stage := stage
  cycle := s.cycle + 1
  tPc := tPc
  tIr := tIr

/-- `raise Halt(cause, stage)`: the record is set; nothing else of the state changes (60_exceptions.md R243). -/
def State.raiseHalt (s : State) (cause : HaltCause) (stage : Stage) (tPc tIr : Word) : State :=
  { s with halt := some (s.haltRecord cause stage tPc tIr) }

/-- The fault that a halt record stands for (93_implementation_defined.md U1). -/
def Fault.ofRecord (r : HaltRecord) : Fault :=
  match r.cause with
  | .unsupported => .unsupported r.toDiagnostic
  | .memAccess => .memAccess r.toDiagnostic
  | .hazardFailure => .hazardFailure r.toDiagnostic
  | .fetchMisaligned => .fetchMisaligned r.toDiagnostic

/-- The host asserts reset: the reset state of the same parameters, the only way out of a halt
(70_reset_and_hazards.md R270; 60_exceptions.md R243). -/
def State.assertReset (s : State) : State := { State.resetWith s.params with level := s.level }

/-! ### Execute's results, and one instruction by itself -/

/-- What Execute computes for one instruction: the result, the memory operation, and the target if it is a taken
transfer (40_pipeline_stages.md R127). -/
structure ExOut where
  result : Word
  memop : MemOp
  redirect : Option Word
deriving DecidableEq, Repr

/-- The row of an instruction that only computes a value. -/
def ExOut.value (v : Word) : ExOut := ⟨v, .none, none⟩

/-- The row of `beq` and `bne`: `result` is the target, taken or not (92_eei_decisions.md D22). -/
def ExOut.branch (taken : Bool) (target : Word) : ExOut := ⟨target, .none, if taken then some target else none⟩

/-- The row of an unconditional transfer. -/
def ExOut.jump (result target : Word) : ExOut := ⟨result, .none, some target⟩

/-- The fault of a bad data address, raised by the `lw` or `sw` `i` at the pc (60_exceptions.md R245). -/
def State.accessFault (s : State) (i : Instr) : Fault :=
  Fault.ofRecord (s.haltRecord .memAccess .MEM s.pc (encode i))

/-- The architectural effect that an instruction's passage through Memory access and Write-back amounts to once Execute
has computed `o`: the memory access, the write of the destination register, and the pc (00_scope.md R11). -/
def State.complete (s : State) (i : Instr) (o : ExOut) (store : Word := 0#32) : Result :=
  let next := o.redirect.getD s.npc
  match o.memop with
  | .none => .next ((s.writeReg (destOf (.instr i)) o.result).setPc next)
  | .load =>
    if s.accessOk o.result then .next ((s.writeReg (destOf (.instr i)) (s.loadWord o.result)).setPc next)
    else .fault (s.accessFault i)
  | .store =>
    if s.accessOk o.result then .next ((s.storeWord o.result store).setPc next)
    else .fault (s.accessFault i)

end Sys2Proof.Machine
end

