-- ==== Sys2Proof/Machine/AluImmediate.lean ====
section
/-!
DEFINITION. Register-immediate arithmetic, logic and compare (42_alu_immediate.md): for each instruction the row
Execute computes from the latched operand and the extended immediate, and its architectural effect.
-/

namespace Sys2Proof.Machine

/-- Execute's row of `addi` (R180). -/
def executeAddi (a imm : Word) : ExOut := .value (a + imm)

/-- `addi rt, rs, imm`: `x[rt] <- x[rs] + sext_32(imm16)` (42_alu_immediate.md R180). -/
def execAddi (rs rt : RegIx) (imm : Imm16) (s : State) : Result :=
  s.complete (.addi rs rt imm) (executeAddi (s.readReg rs) (signExtended imm))

/-- Execute's row of `andi` (R181). -/
def executeAndi (a imm : Word) : ExOut := .value (a &&& imm)

/-- `andi rt, rs, imm`: `x[rt] <- x[rs] & zext_32(imm16)` (42_alu_immediate.md R181). -/
def execAndi (rs rt : RegIx) (imm : Imm16) (s : State) : Result :=
  s.complete (.andi rs rt imm) (executeAndi (s.readReg rs) (zeroExtended imm))

/-- Execute's row of `ori` (R182). -/
def executeOri (a imm : Word) : ExOut := .value (a ||| imm)

/-- `ori rt, rs, imm`: `x[rt] <- x[rs] | zext_32(imm16)` (42_alu_immediate.md R182). -/
def execOri (rs rt : RegIx) (imm : Imm16) (s : State) : Result :=
  s.complete (.ori rs rt imm) (executeOri (s.readReg rs) (zeroExtended imm))

/-- Execute's row of `slti` (R183). -/
def executeSlti (a imm : Word) : ExOut := .value (truthWord (lessSigned a imm))

/-- `slti rt, rs, imm`: `x[rt] <- 1 if signed(x[rs]) < signed(sext_32(imm16)) else 0` (42_alu_immediate.md R183). -/
def execSlti (rs rt : RegIx) (imm : Imm16) (s : State) : Result :=
  s.complete (.slti rs rt imm) (executeSlti (s.readReg rs) (signExtended imm))

end Sys2Proof.Machine
end

