-- ==== Sys2Proof/Machine/AluRegister.lean ====
section
/-!
DEFINITION. Register-register arithmetic, logic, compare and shift (41_alu_register.md): for each instruction the row
Execute computes from the latched operands (40_pipeline_stages.md R127), and its architectural effect.
-/

namespace Sys2Proof.Machine

/-- Execute's row of `add` (R160). -/
def executeAdd (a b : Word) : ExOut := .value (a + b)

/-- `add rd, rs, rt`: `x[rd] <- x[rs] + x[rt]` (41_alu_register.md R160). -/
def execAdd (rs rt rd : RegIx) (s : State) : Result :=
  s.complete (.add rs rt rd) (executeAdd (s.readReg rs) (s.readReg rt))

/-- Execute's row of `sub` (R161). -/
def executeSub (a b : Word) : ExOut := .value (a - b)

/-- `sub rd, rs, rt`: `x[rd] <- x[rs] - x[rt]` (41_alu_register.md R161). -/
def execSub (rs rt rd : RegIx) (s : State) : Result :=
  s.complete (.sub rs rt rd) (executeSub (s.readReg rs) (s.readReg rt))

/-- Execute's row of `and` (R162). -/
def executeAnd (a b : Word) : ExOut := .value (a &&& b)

/-- `and rd, rs, rt`: `x[rd] <- x[rs] & x[rt]` (41_alu_register.md R162). -/
def execAnd (rs rt rd : RegIx) (s : State) : Result :=
  s.complete (.and rs rt rd) (executeAnd (s.readReg rs) (s.readReg rt))

/-- Execute's row of `or` (R163). -/
def executeOr (a b : Word) : ExOut := .value (a ||| b)

/-- `or rd, rs, rt`: `x[rd] <- x[rs] | x[rt]` (41_alu_register.md R163). -/
def execOr (rs rt rd : RegIx) (s : State) : Result :=
  s.complete (.or rs rt rd) (executeOr (s.readReg rs) (s.readReg rt))

/-- Execute's row of `nor` (R164). -/
def executeNor (a b : Word) : ExOut := .value (~~~(a ||| b))

/-- `nor rd, rs, rt`: `x[rd] <- ~(x[rs] | x[rt])` (41_alu_register.md R164). -/
def execNor (rs rt rd : RegIx) (s : State) : Result :=
  s.complete (.nor rs rt rd) (executeNor (s.readReg rs) (s.readReg rt))

/-- Execute's row of `slt` (R165). -/
def executeSlt (a b : Word) : ExOut := .value (truthWord (lessSigned a b))

/-- `slt rd, rs, rt`: `x[rd] <- 1 if signed(x[rs]) < signed(x[rt]) else 0` (41_alu_register.md R165). -/
def execSlt (rs rt rd : RegIx) (s : State) : Result :=
  s.complete (.slt rs rt rd) (executeSlt (s.readReg rs) (s.readReg rt))

/-- Execute's row of `sll` (R166). -/
def executeSll (b : Word) (shamt : Shamt) : ExOut := .value (shiftLeft b shamt)

/-- `sll rd, rt, shamt`: `x[rd] <- x[rt] << shamt` (41_alu_register.md R166). -/
def execSll (rt rd : RegIx) (shamt : Shamt) (s : State) : Result :=
  s.complete (.sll rt rd shamt) (executeSll (s.readReg rt) shamt)

/-- Execute's row of `srl` (R167). -/
def executeSrl (b : Word) (shamt : Shamt) : ExOut := .value (shiftRightLogical b shamt)

/-- `srl rd, rt, shamt`: `x[rd] <- x[rt] >>u shamt` (41_alu_register.md R167). -/
def execSrl (rt rd : RegIx) (shamt : Shamt) (s : State) : Result :=
  s.complete (.srl rt rd shamt) (executeSrl (s.readReg rt) shamt)

/-- Execute's row of `sra` (R168). -/
def executeSra (b : Word) (shamt : Shamt) : ExOut := .value (shiftRightArith b shamt)

/-- `sra rd, rt, shamt`: `x[rd] <- x[rt] >>s shamt` (41_alu_register.md R168). -/
def execSra (rt rd : RegIx) (shamt : Shamt) (s : State) : Result :=
  s.complete (.sra rt rd shamt) (executeSra (s.readReg rt) shamt)

end Sys2Proof.Machine
end

