-- ==== Sys2Proof/Machine/BranchJump.lean ====
section
/-!
DEFINITION. Branches and jumps (44_branch_jump.md): resolved in Execute from the latched operands and `npc`; no delay
slot.
-/

namespace Sys2Proof.Machine

/-- Execute's row of `beq`: taken iff all 32 bits are equal (R200). -/
def executeBeq (npc a b imm : Word) : ExOut := .branch (decide (a = b)) (branchTarget npc imm)

/-- `beq rs, rt, offset` (44_branch_jump.md R200). -/
def execBeq (rs rt : RegIx) (imm : Imm16) (s : State) : Result :=
  s.complete (.beq rs rt imm) (executeBeq s.npc (s.readReg rs) (s.readReg rt) (signExtended imm))

/-- Execute's row of `bne` (R201). -/
def executeBne (npc a b imm : Word) : ExOut := .branch (decide (a ≠ b)) (branchTarget npc imm)

/-- `bne rs, rt, offset` (44_branch_jump.md R201). -/
def execBne (rs rt : RegIx) (imm : Imm16) (s : State) : Result :=
  s.complete (.bne rs rt imm) (executeBne s.npc (s.readReg rs) (s.readReg rt) (signExtended imm))

/-- Execute's row of `j` (R202). -/
def executeJ (npc : Word) (target : Target26) : ExOut := .jump (jumpTarget npc target) (jumpTarget npc target)

/-- `j label`: `pc <- npc[31:28] : target : 00` (44_branch_jump.md R202). -/
def execJ (target : Target26) (s : State) : Result :=
  s.complete (.j target) (executeJ s.npc target)

/-- Execute's row of `jal`: the result is the link value `npc` (R204). -/
def executeJal (npc : Word) (target : Target26) : ExOut := .jump npc (jumpTarget npc target)

/-- `jal label`: `x[31] <- npc; pc <- npc[31:28] : target : 00` (44_branch_jump.md R204). -/
def execJal (target : Target26) (s : State) : Result :=
  s.complete (.jal target) (executeJal s.npc target)

/-- Execute's row of `jr` (R203). -/
def executeJr (a : Word) : ExOut := .jump a a

/-- `jr rs`: `pc <- x[rs]` (44_branch_jump.md R203). -/
def execJr (rs : RegIx) (s : State) : Result :=
  s.complete (.jr rs) (executeJr (s.readReg rs))

end Sys2Proof.Machine
end

