-- ==== Sys2Proof/Machine/LoadStore.lean ====
section
/-!
DEFINITION. Load word and store word (43_load_store.md): Execute computes the effective address; Memory access checks it
and performs the access.
-/

namespace Sys2Proof.Machine

/-- Execute's row of `lw` (R190). -/
def executeLw (a imm : Word) : ExOut := ⟨effectiveAddress a imm, .load, none⟩

/-- `lw rt, imm(rs)`: `x[rt] <- MemRead(ea, 4)`, or the halt `MEM_ACCESS` (43_load_store.md R190). -/
def execLw (rs rt : RegIx) (imm : Imm16) (s : State) : Result :=
  s.complete (.lw rs rt imm) (executeLw (s.readReg rs) (signExtended imm))

/-- Execute's row of `sw` (R191). -/
def executeSw (a imm : Word) : ExOut := ⟨effectiveAddress a imm, .store, none⟩

/-- `sw rt, imm(rs)`: `MemWrite(ea, 4, x[rt])`, or the halt `MEM_ACCESS` (43_load_store.md R191). -/
def execSw (rs rt : RegIx) (imm : Imm16) (s : State) : Result :=
  s.complete (.sw rs rt imm) (executeSw (s.readReg rs) (signExtended imm)) (s.readReg rt)

end Sys2Proof.Machine
end

