-- ==== Sys2Proof/Machine/Execute.lean ====
section
/-! DEFINITION. Execute's table: what the stage computes from the ID/EX latch alone (40_pipeline_stages.md R127). -/

namespace Sys2Proof.Machine

/-- The row of each instruction, on the operands the latch holds (R127). -/
def executeInstr (i : Instr) (d : IdEx) : ExOut :=
  match i with
  | .sll _ _ shamt => executeSll d.b shamt
  | .srl _ _ shamt => executeSrl d.b shamt
  | .sra _ _ shamt => executeSra d.b shamt
  | .jr _ => executeJr d.a
  | .add _ _ _ => executeAdd d.a d.b
  | .sub _ _ _ => executeSub d.a d.b
  | .and _ _ _ => executeAnd d.a d.b
  | .or _ _ _ => executeOr d.a d.b
  | .nor _ _ _ => executeNor d.a d.b
  | .slt _ _ _ => executeSlt d.a d.b
  | .beq _ _ _ => executeBeq d.npc d.a d.b d.imm
  | .bne _ _ _ => executeBne d.npc d.a d.b d.imm
  | .addi _ _ _ => executeAddi d.a d.imm
  | .slti _ _ _ => executeSlti d.a d.imm
  | .andi _ _ _ => executeAndi d.a d.imm
  | .ori _ _ _ => executeOri d.a d.imm
  | .lw _ _ _ => executeLw d.a d.imm
  | .sw _ _ _ => executeSw d.a d.imm
  | .j target => executeJ d.npc target
  | .jal target => executeJal d.npc target

/-- The target of the taken transfer in Execute, if there is one: the flush signal `redirect` of this tick with the
address it carries (R128). An unsupported encoding is none (R129). -/
def redirectOf (d : IdEx) : Option Word :=
  match d.op with
  | .instr i => (executeInstr i d).redirect
  | .illegal _ => none

end Sys2Proof.Machine
end

