-- ==== Sys2Proof/Machine/Hazard.lean ====
section
/-!
DEFINITION. The hazard detection unit and stall controller (45_hazard_unit.md), and the occupancy and trace views of the
latches (10_state.md R45, R46). All are computed from start-of-tick latches; there is no stall counter in the state.
-/

namespace Sys2Proof.Machine

/-- `hz_ex`: the instruction in Execute will write a register that `ir` names (R220); a destination 0 is never a hazard
(R221). -/
def State.hazardEx (s : State) (ir : Word) : Bool :=
  match s.idex with
  | some d => decide (d.dest ≠ 0#5) && decide (d.dest ∈ srcsOf ir)
  | none => false

/-- `hz_mem`: the instruction in Memory access will write a register that `ir` names (R220, R221). -/
def State.hazardMem (s : State) (ir : Word) : Bool :=
  match s.exmem with
  | some m => decide (m.dest ≠ 0#5) && decide (m.dest ∈ srcsOf ir)
  | none => false

/-- The hazard condition (R220). The instruction in Write-back is not checked, and nothing is forwarded (R225). -/
def State.hazard (s : State) (ir : Word) : Bool := s.hazardEx ir || s.hazardMem ir

/-- A taken transfer is in Execute in this tick (R128). DESIGN CHOICE (assumption log 16): so it reads too where Memory
access halts the tick before Execute is evaluated, and in a halted core. -/
def State.flushing (s : State) : Bool :=
  match s.idex with
  | some d => (redirectOf d).isSome
  | none => false

/-- Decode's stall request (`make_stall`): the number of hold ticks still to come, the present one included; none in a
tick without a hold (R224, R231). A flush beats a hold (R227). DESIGN CHOICE (assumption log 16): it reads the latches
alone, also in a tick that Memory access or Execute halts before Decode is evaluated, and in a halted core. -/
def State.stallRequest (s : State) : Option Nat :=
  match s.ifid with
  | some f => if s.flushing || !s.hazard f.ir then none else some (if s.hazardEx f.ir then 2 else 1)
  | none => none

/-- Decode holds in this tick (R223); where Decode is not evaluated it reads as the stall request does (DESIGN CHOICE,
assumption log 16). -/
def State.holding (s : State) : Bool := s.stallRequest.isSome

/-- Fetch fetches in this tick if no stage halts: no flush, no hold, the pc aligned and in range (40_pipeline_stages.md
R134 to R138). -/
def State.fetching (s : State) : Bool := !s.flushing && !s.holding && s.pcAligned && s.inFetchRange

/-- `is_noop(stage)`: the stage is a bubble in this tick (10_state.md R45). -/
def State.isNoop (s : State) : Stage → Bool
  | .WB => s.memwb.isNone
  | .MEM => s.exmem.isNone
  | .EX => s.idex.isNone
  | .ID => s.ifid.isNone || s.flushing
  | .IF => !s.fetching

/-- `stages[stage]`: the address and word of the instruction whose latch the stage consumes, for the host
(10_state.md R46). Fetch consumes no latch. -/
def State.resident (s : State) : Stage → Option (Word × Word)
  | .WB => s.memwb.map fun l => (l.tPc, l.tIr)
  | .MEM => s.exmem.map fun l => (l.tPc, l.tIr)
  | .EX => s.idex.map fun l => (l.tPc, l.tIr)
  | .ID => s.ifid.map fun l => (l.tPc, l.tIr)
  | .IF => none

end Sys2Proof.Machine
end

