-- ==== Sys2Proof/Machine/Pipeline.lean ====
section
/-!
DEFINITION. One tick of the pipeline (40_pipeline_stages.md): the five stages in the order WB, MEM, EX, ID, IF, each on
the start-of-tick latches, sharing registers, memory and pc in place; then the commit of the latches.
-/

namespace Sys2Proof.Machine

/-- What a stage that can halt leaves: the state as it stands and the stage's output, or the halted state, at which the
evaluation of the tick stops (R121). -/
inductive StageResult (α : Type) where
  | go (s : State) (out : α)
  | halted (s : State)
deriving DecidableEq, Repr

/-- Write-back: the single point of register mutation (R122). -/
def stageWb (s : State) : State :=
  match s.memwb with
  | none => s
  | some l => s.writeReg l.dest l.value

/-- Memory access: the new MEM/WB latch (R123, R124), or the halt of the access check (R125). -/
def stageMem (s : State) : StageResult (Option MemWb) :=
  match s.exmem with
  | none => .go s none
  | some m =>
    match m.memop with
    | .none => .go s (some { value := m.result, dest := m.dest, tPc := m.tPc, tIr := m.tIr })
    | .load =>
      if s.accessOk m.result then
        .go s (some { value := s.loadWord m.result, dest := m.dest, tPc := m.tPc, tIr := m.tIr })
      else .halted (s.raiseHalt .memAccess .MEM m.tPc m.tIr)
    | .store =>
      if s.accessOk m.result then
        .go (s.storeWord m.result m.store) (some { value := m.result, dest := 0#5, tPc := m.tPc, tIr := m.tIr })
      else .halted (s.raiseHalt .memAccess .MEM m.tPc m.tIr)

/-- The new EX/MEM latch: `store` is operand 2 for every instruction (R127). -/
def IdEx.toExMem (d : IdEx) (o : ExOut) : ExMem where
  npc := d.npc
  result := o.result
  store := d.b
  dest := d.dest
  memop := o.memop
  tPc := d.tPc
  tIr := d.tIr

/-- Execute: the new EX/MEM latch and the flush signal; a taken transfer overwrites the pc (R126 to R128), an
unsupported encoding halts (R129). -/
def stageEx (s : State) : StageResult (Option ExMem × Bool) :=
  match s.idex with
  | none => .go s (none, false)
  | some d =>
    match d.op with
    | .illegal _ => .halted (s.raiseHalt .unsupported .EX d.tPc d.tIr)
    | .instr i =>
      let o := executeInstr i d
      match o.redirect with
      | some t => .go (s.setPc t) (some (d.toExMem o), true)
      | none => .go s (some (d.toExMem o), false)

/-- The ID/EX latch of an instruction that Decode issues: both registers are read whatever the instruction (R131). -/
def State.issue (s : State) (f : IfId) : IdEx where
  npc := f.npc
  a := s.readReg (rsOf f.ir)
  b := s.readReg (rtOf f.ir)
  imm := immOf (decode f.ir) f.ir
  dest := destOf (decode f.ir)
  op := decode f.ir
  tPc := f.tPc
  tIr := f.tIr

/-- Decode: the new ID/EX latch and the hold signal; a bubble on a flush or an empty latch (R130), a bubble and a hold on
a hazard (R132), else the instruction issues (R131). It changes no shared state (R133). -/
def stageId (s : State) (redirect : Bool) : Option IdEx × Bool :=
  match s.ifid with
  | none => (none, false)
  | some f =>
    if redirect then (none, false)
    else if s.hazard f.ir then (none, true)
    else (some (s.issue f), false)

/-- Fetch does exactly one of five things, tested in this order: flush (R134), hold (R135), the misaligned halt (R137),
idle (R138), fetch (R136). -/
def stageIf (s : State) (redirect hold : Bool) : StageResult (Option IfId) :=
  if redirect then .go s none
  else if hold then .go s s.ifid
  else if !s.pcAligned then .halted (s.raiseHalt .fetchMisaligned .IF s.pc 0#32)
  else if !s.inFetchRange then .go s none
  else
    let w := s.loadWord s.pc
    .go (s.setPc s.npc) (some { ir := w, npc := s.npc, tPc := s.pc, tIr := w })

/-- End of tick: the four latches take their new values together and the counter advances (R139). -/
def State.commit (s : State) (ifid : Option IfId) (idex : Option IdEx) (exmem : Option ExMem)
    (memwb : Option MemWb) : State :=
  { s with ifid := ifid, idex := idex, exmem := exmem, memwb := memwb, cycle := s.cycle + 1 }

/-- The tick function, total on states: a halted core stays as it is; a halt stops the evaluation where it is raised
(R140; 60_exceptions.md R243). -/
def tick (s : State) : State :=
  if s.halt.isSome then s
  else
    match stageMem (stageWb s) with
    | .halted h => h
    | .go s2 memwb =>
      match stageEx s2 with
      | .halted h => h
      | .go s3 (exmem, redirect) =>
        let (idex, hold) := stageId s3 redirect
        match stageIf s3 redirect hold with
        | .halted h => h
        | .go s4 ifid => s4.commit ifid idex exmem memwb

/-- What the host sees of a state: a halted core is a fault that carries only the halt record
(93_implementation_defined.md U1). -/
def haltOutcome (s : State) : Result :=
  match s.halt with
  | some r => .fault (Fault.ofRecord r)
  | none => .next s

/-- One tick as a step. -/
def stepCycle (s : State) : Result := haltOutcome (tick s)

end Sys2Proof.Machine
end

