-- ==== Sys2Proof/Machine/Sequential.lean ====
section
/-! DEFINITION. The sequential machine `Seq`, one instruction a step (70_reset_and_hazards.md R284). -/

namespace Sys2Proof.Machine

/-- One step of `Seq`: a misaligned pc faults; a pc at or beyond `FETCH_END` is a final state, which stays as it is;
else the word at the pc is read and decoded, and its architectural effect performed (R284). -/
def stepSequential (s : State) : Result :=
  if !s.pcAligned then .fault (Fault.ofRecord (s.haltRecord .fetchMisaligned .IF s.pc 0#32))
  else if !s.inFetchRange then .next s
  else
    match decode (s.loadWord s.pc) with
    | .instr i => exec i s
    | .illegal w => .fault (Fault.ofRecord (s.haltRecord .unsupported .EX s.pc w))

end Sys2Proof.Machine
end

