-- ==== Sys2Proof/Machine/Step.lean ====
section
/-!
DEFINITION. The step of the machine: one tick at the normative level, one instruction at the sequential level
(00_scope.md R11); and the placing of one instruction for the host.
-/

namespace Sys2Proof.Machine

/-- One step. Parameters outside their constraints are refused (93_implementation_defined.md U10); a halted core does
nothing and answers with its halt record (60_exceptions.md R243); else the machine of the state's level steps. -/
def step (s : State) : Host.Outcome State Fault Refusal :=
  if !s.params.wellFormed then .refused .badParameters
  else
    match s.halt with
    | some r => .fault (Fault.ofRecord r)
    | none =>
      match s.level with
      | .cycle => stepCycle s
      | .sequential => stepSequential s

/-- `s` with one instruction stored at the pc, most significant byte first, at the level whose very next step fetches,
decodes and runs it (assumption log 3). -/
def State.withFetchWord (s : State) (nbits w : Nat) : State :=
  { s with level := .sequential, mem := writeWord s.mem s.pc.toNat (BitVec.ofNat 32 (w % 2 ^ nbits)) }

end Sys2Proof.Machine
end

