-- ==== Sys2Proof/Machine/ArchView.lean ====
section
/-!
DEFINITION. The architectural view of a pipeline state: what registers, memory and pc amount to once the instructions past
Execute have completed (00_scope.md R11; 70_reset_and_hazards.md R283); and the relation that the hazard unit keeps
between the latches and the registers (45_hazard_unit.md R229).
-/

namespace Sys2Proof.Machine

/-- The address of the next instruction to execute: the one in ID/EX, else the one in IF/ID, else the one at the pc. -/
def State.nextAddr (s : State) : Word :=
  match s.idex with
  | some d => d.tPc
  | none =>
    match s.ifid with
    | some f => f.tPc
    | none => s.pc

/-- The state with the instruction in Write-back and then the one in Memory access completed, all latches empty and the
pc at the next instruction to execute; or the halt of that memory access. It is a state of the sequential machine. -/
def State.archView (s : State) : Result :=
  match stageMem (stageWb s) with
  | .halted h => haltOutcome h
  | .go s2 memwb =>
    .next { stageWb { s2 with memwb := memwb } with
      level := .sequential, pc := s.nextAddr, ifid := none, idex := none, exmem := none, memwb := none }

/-- Two states agree on the architectural state: registers, pc and memory (10_state.md R30). -/
def State.sameArch (s t : State) : Bool := decide (s.x = t.x) && decide (s.pc = t.pc) && decide (s.mem = t.mem)

/-- The diagnostic of a fault. -/
def Fault.diagnostic : Fault → Diagnostic
  | .unsupported d | .memAccess d | .hazardFailure d | .fetchMisaligned d => d

/-- The cause of a fault. -/
def Fault.cause : Fault → HaltCause
  | .unsupported _ => .unsupported
  | .memAccess _ => .memAccess
  | .hazardFailure _ => .hazardFailure
  | .fetchMisaligned _ => .fetchMisaligned

/-- The same cause and the same offending instruction (70_reset_and_hazards.md R283); the tick may differ. -/
def Fault.sameError (f g : Fault) : Bool :=
  decide (f.cause = g.cause) && decide (f.diagnostic.tPc = g.diagnostic.tPc) &&
    decide (f.diagnostic.tIr = g.diagnostic.tIr)

/-- Two outcomes agree architecturally. -/
def sameOutcome : Result → Result → Bool
  | .next s, .next t => s.sameArch t
  | .fault f, .fault g => f.sameError g
  | .refused r, .refused q => decide (r = q)
  | _, _ => false

/-- An instruction address Fetch can have fetched from. -/
def State.fetchable (s : State) (a : Word) : Bool :=
  decide (a.toNat % 4 = 0) && decide (a.toNat + 4 ≤ s.params.fetchEnd)

/-- The IF/ID latch belongs to the instruction before the pc (10_state.md R34, R41). -/
def State.ifidCoherent (s : State) : Bool :=
  match s.ifid with
  | none => true
  | some f =>
    decide (f.ir = f.tIr) && decide (f.npc = f.tPc + 4) && decide (s.pc = f.npc) && s.fetchable f.tPc

/-- The ID/EX latch holds what Decode makes of its word, the next instruction follows it, and its operands are the values
left by every older instruction: no older one still to write back names its sources (45_hazard_unit.md R229). -/
def State.idexCoherent (s : State) : Bool :=
  match s.idex with
  | none => true
  | some d =>
    decide (d.op = decode d.tIr) && decide (d.npc = d.tPc + 4) && decide (d.imm = immOf d.op d.tIr) &&
    decide (d.dest = destOf d.op) && s.fetchable d.tPc &&
    (match s.ifid with
      | some f => decide (f.tPc = d.npc)
      | none => decide (s.pc = d.npc)) &&
    !s.hazardMem d.tIr &&
    (decide (srcsOf d.tIr = []) ||
      (decide (d.a = (stageWb s).readReg (rsOf d.tIr)) && decide (d.b = (stageWb s).readReg (rtOf d.tIr))))

/-- The latches are coherent. -/
def State.coherent (s : State) : Bool := s.ifidCoherent && s.idexCoherent

/-- The word of the instruction in Execute is the word that memory holds at its address once older stores are done: the
fetch was not stale (20_memory.md R72; 70_reset_and_hazards.md R281). -/
def State.fetchFresh (s : State) : Bool :=
  match s.idex, s.archView with
  | some d, .next v => decide (v.loadWord d.tPc = d.tIr)
  | _, _ => true

end Sys2Proof.Machine
end

