-- ==== Sys2Proof/Safety.lean ====
section
/-!
DEFINITION. What counts as a good state and a good run, and what a step leaves unchanged, in the terms the claims use.
-/

namespace Sys2Proof.Machine

/-- The spec gives this state a behaviour: its parameters keep their constraints (93_implementation_defined.md U10) and
no halt record is set (10_state.md R47). -/
def State.running (s : State) : Bool := s.params.wellFormed && s.halt.isNone

/-- A running state of the cycle-level machine. -/
def State.ticking (s : State) : Bool := s.running && decide (s.level = .cycle)

/-- A running state of the sequential machine. -/
def State.sequencing (s : State) : Bool := s.running && decide (s.level = .sequential)

/-- All four latches are empty. -/
def State.latchesEmpty (s : State) : Bool :=
  s.ifid.isNone && s.idex.isNone && s.exmem.isNone && s.memwb.isNone

/-- Drained: how a run ends successfully (70_reset_and_hazards.md R276). -/
def State.drained (s : State) : Bool :=
  s.halt.isNone && s.latchesEmpty && s.pcAligned && !s.inFetchRange

/-- `k` steps complete: no fault and no refusal on the way. -/
def safeFor (k : Nat) (s : State) : Prop := ∃ t, Sys2Proof.core.run k s = .next t

/-- The state invariant: well-formed parameters, the memory image in its canonical form and inside `MEM_SIZE`, and
nothing in the place of the hard-wired register (10_state.md R31, R40). -/
def State.invariant (s : State) : Bool :=
  s.params.wellFormed && s.mem.wf && s.mem.below s.params.memSize && decide (s.x[0] = 0#32)

/-- Memory access will not halt in this tick: its latch is empty, does no access, or passes the check
(40_pipeline_stages.md R125). -/
def State.accessPasses (s : State) : Bool :=
  match s.exmem with
  | some m => decide (m.memop = .none) || s.accessOk m.result
  | none => true

/-- Execute will not halt in this tick: its latch is empty or holds an instruction (40_pipeline_stages.md R129). -/
def State.executePasses (s : State) : Bool :=
  match s.idex with
  | some d =>
    match d.op with
    | .instr _ => true
    | .illegal _ => false
  | none => true

/-! ### Frames -/

/-- Every field of the state but registers, pc and memory is unchanged. -/
def sameOther (s t : State) : Prop :=
  t.params = s.params ∧ t.level = s.level ∧ t.ifid = s.ifid ∧ t.idex = s.idex ∧ t.exmem = s.exmem ∧
    t.memwb = s.memwb ∧ t.halt = s.halt ∧ t.cycle = s.cycle

/-- Every register is unchanged. -/
def sameRegs (s t : State) : Prop := ∀ r, t.readReg r = s.readReg r

/-- Register `rd` reads `v`, or 0 if it is register 0; every other register is unchanged. -/
def onlyReg (s t : State) (rd : RegIx) (v : Word) : Prop :=
  t.readReg rd = (if rd = 0#5 then 0#32 else v) ∧ ∀ r, r ≠ rd → t.readReg r = s.readReg r

/-- Every byte of memory is unchanged. -/
def sameMem (s t : State) : Prop := ∀ a, readByte t.mem a = readByte s.mem a

/-- Every byte of memory outside the four from `base` on is unchanged. -/
def sameMemOutside (s t : State) (base : Nat) : Prop :=
  ∀ a, a < base ∨ base + 4 ≤ a → readByte t.mem a = readByte s.mem a

/-- An instruction completes with its one result in `rd`, the pc at the next instruction, and nothing else changed. -/
def completesWith (i : Instr) (s : State) (rd : RegIx) (v : Word) : Prop :=
  ∃ t, exec i s = .next t ∧ onlyReg s t rd v ∧ t.pc = s.pc + 4 ∧ sameMem s t ∧ sameOther s t

/-- A transfer completes with the pc at `target`, and nothing else changed. -/
def transfersTo (i : Instr) (s : State) (target : Word) : Prop :=
  ∃ t, exec i s = .next t ∧ t.pc = target ∧ sameRegs s t ∧ sameMem s t ∧ sameOther s t

/-- An instruction that computes one word: its encoding decodes to it, Execute's row for it is that word with no memory
operation and no transfer, and by itself it completes with that word in `rd` (41_alu_register.md R169,
42_alu_immediate.md R184). -/
def computes (i : Instr) (word : Word) (rd : RegIx) (row : IdEx → Word) (value : State → Word) : Prop :=
  decode word = .instr i ∧ destOf (.instr i) = rd ∧ (∀ d, executeInstr i d = ⟨row d, .none, none⟩) ∧
    ∀ s, completesWith i s rd (value s)

end Sys2Proof.Machine
end

