-- ==== Sys2Proof/Certificates/Slice0/Obligations.lean ====
section
/-!
DEFINITION. The statements for the provers. Each says which rule of the spec it formalises; what rests on a choice of
the model says so and names the assumption log's row.
-/

open Sys2Proof Sys2Proof.Machine

/-! ### Encoding and decoding -/

/-- Decode and encode agree on every instruction, with every operand at every value (30_encoding.md R91 to R96, R103). -/
def Obligations.DecodeOfEncode : Prop := ∀ i : Instr, decode (encode i) = .instr i

/-- The four bytes of an instruction, most significant first, decode to it and leave the bytes after it (R90, R61). -/
def Obligations.DecodeBytesOfEncode : Prop :=
  ∀ (i : Instr) (rest : List Byte),
    decodeBytes (byteOfWord (encode i) 0 :: byteOfWord (encode i) 1 :: byteOfWord (encode i) 2 ::
      byteOfWord (encode i) 3 :: rest) = .ok (i, rest)

/-- A word is one of the twenty instructions, in exactly one row of the table, or unsupported, in no row (R108). -/
def Obligations.WordInOneRowOrUnsupported : Prop :=
  ∀ w : Word,
    (∃ i, decode w = .instr i ∧ i.row.holds w = true ∧ ∀ j : Instr, j.row.holds w = true → j.row = i.row) ∨
    (decode w = .illegal w ∧ ∀ j : Instr, j.row.holds w = false)

/-- Fields an instruction does not use are ignored by decoding, but still read and compared where they overlay `rs` or
`rt` (R106). -/
def Obligations.UnusedFieldsIgnored : Prop :=
  ∀ (rs rt rd : RegIx) (shamt : Shamt),
    decode (encodeR rs rt rd shamt 0x20) = .instr (.add rs rt rd) ∧
    decode (encodeR rs rt rd shamt 0x22) = .instr (.sub rs rt rd) ∧
    decode (encodeR rs rt rd shamt 0x24) = .instr (.and rs rt rd) ∧
    decode (encodeR rs rt rd shamt 0x25) = .instr (.or rs rt rd) ∧
    decode (encodeR rs rt rd shamt 0x27) = .instr (.nor rs rt rd) ∧
    decode (encodeR rs rt rd shamt 0x2A) = .instr (.slt rs rt rd) ∧
    decode (encodeR rs rt rd shamt 0x00) = .instr (.sll rt rd shamt) ∧
    decode (encodeR rs rt rd shamt 0x02) = .instr (.srl rt rd shamt) ∧
    decode (encodeR rs rt rd shamt 0x03) = .instr (.sra rt rd shamt) ∧
    decode (encodeR rs rt rd shamt 0x08) = .instr (.jr rs) ∧
    ∀ funct : BitVec 6, funct ∈ [0x00#6, 0x02#6, 0x03#6, 0x08#6] →
      srcsOf (encodeR rs rt rd shamt funct) = [rs, rt] ∧
      ∀ (s : State) (f : IfId), f.ir = encodeR rs rt rd shamt funct →
        (s.issue f).a = s.readReg rs ∧ (s.issue f).b = s.readReg rt

/-- The extended immediate that Decode latches: zero-extended for `andi` and `ori`, sign-extended for every other word,
not scaled; a branch scales it by 4 in Execute, and an instruction of another format does not read it (R101). -/
def Obligations.ImmediateExtension : Prop :=
  (∀ (s : State) (f : IfId),
    match decode f.ir with
    | .instr (.andi ..) | .instr (.ori ..) => (s.issue f).imm.toNat = f.ir.toNat % 65536
    | _ => (s.issue f).imm.toInt = ((f.ir.toNat % 65536 : Nat) : Int).bmod 65536) ∧
  (∀ (d : IdEx) (rs rt : RegIx) (imm : Imm16),
    (executeInstr (.beq rs rt imm) d).result = d.npc + d.imm * 4#32 ∧
    (executeInstr (.bne rs rt imm) d).result = d.npc + d.imm * 4#32) ∧
  ∀ (i : Instr) (d : IdEx) (v : Word), i.format ≠ .i → executeInstr i { d with imm := v } = executeInstr i d

/-- The all-zero word is `sll $zero, $zero, 0`: it reads only register 0 and writes it, only moves the pc on, raises no
hazard, and is no bubble (R110). -/
def Obligations.AllZeroWordIsNoop : Prop :=
  decode 0#32 = .instr (.sll 0#5 0#5 0#5) ∧ nop = .sll 0#5 0#5 0#5 ∧ srcsOf 0#32 = [0#5, 0#5] ∧
  destOf (.instr nop) = 0#5 ∧
  ∀ s : State, exec nop s = .next (s.setPc (s.pc + 4)) ∧ s.hazard 0#32 = false ∧
    ∀ f : IfId, s.ifid = some f → f.ir = 0#32 → ∃ d, stageId s false = (some d, false)

/-- Words written out from the encodings decode to the instructions they stand for (R103; a sanity statement). -/
def Obligations.WrittenWordsDecode : Prop :=
  decode 0x01095020 = .instr (.add 8 9 10) ∧ decode 0x00095103 = .instr (.sra 9 10 4) ∧
  decode 0x2109FFFF = .instr (.addi 8 9 0xFFFF) ∧ decode 0xAD090008 = .instr (.sw 8 9 8) ∧
  decode 0x1109FFFE = .instr (.beq 8 9 0xFFFE) ∧ decode 0x0C000008 = .instr (.jal 8) ∧
  decode 0x03E00008 = .instr (.jr 31) ∧ decode 0x0000000C = .illegal 0x0000000C

/-- An offset that the assembler finds for a label makes the branch's target that label; a jump's target field does so
inside the region of the jump's `npc` (R111). -/
def Obligations.AssembledTargetsReachLabels : Prop :=
  (∀ (here label : Word) (offset : Imm16), asmBranch here label = some offset →
    branchTarget (here + 4) (signExtended offset) = label) ∧
  ∀ here label : Word, label.toNat % 4 = 0 → label.toNat / 268435456 = (here + 4).toNat / 268435456 →
    jumpTarget (here + 4) (asmTarget label) = label

/-! ### Registers and memory -/

/-- Register 0 reads as 0 in every state and after any number of steps, a write to it changes nothing, and a write to any
other register is read back there and nowhere else (10_state.md R31). -/
def Obligations.RegisterFile : Prop :=
  (∀ s : State, s.readReg 0 = 0) ∧ (∀ (s : State) (v : Word), s.writeReg 0 v = s) ∧
  (∀ (s : State) (r q : RegIx) (v : Word), r ≠ 0 → (s.writeReg r v).readReg q = if q = r then v else s.readReg q) ∧
  ∀ (s t : State) (k : Nat), Sys2Proof.core.run k s = .next t → t.readReg 0 = 0

/-- `MemRead` is big-endian, for a load and for a fetch: the word that Fetch latches is the one a load would read
(20_memory.md R61). -/
def Obligations.WordReadBigEndian : Prop :=
  (∀ (s : State) (addr : Word),
    (s.loadWord addr).toNat =
      (readByte s.mem addr.toNat).toNat * 16777216 + (readByte s.mem (addr.toNat + 1)).toNat * 65536 +
      (readByte s.mem (addr.toNat + 2)).toNat * 256 + (readByte s.mem (addr.toNat + 3)).toNat) ∧
  ∀ s t : State, s.ticking = true → s.fetching = true → step s = .next t →
    t.ifid.map (fun f => f.ir) = some (t.loadWord s.pc)

/-- `MemWrite` sets four bytes, most significant first, and no other; reading the word back gives it (20_memory.md R62). -/
def Obligations.WordWriteBigEndian : Prop :=
  ∀ (s : State) (addr v : Word), s.mem.wf = true →
    (readByte (s.storeWord addr v).mem addr.toNat).toNat = v.toNat / 16777216 ∧
    (readByte (s.storeWord addr v).mem (addr.toNat + 1)).toNat = v.toNat / 65536 % 256 ∧
    (readByte (s.storeWord addr v).mem (addr.toNat + 2)).toNat = v.toNat / 256 % 256 ∧
    (readByte (s.storeWord addr v).mem (addr.toNat + 3)).toNat = v.toNat % 256 ∧
    sameMemOutside s (s.storeWord addr v) addr.toNat ∧ (s.storeWord addr v).loadWord addr = v

/-- A word stored and then loaded at the same aligned address in range is the word (43_load_store.md R193). -/
def Obligations.StoreThenLoadRoundTrip : Prop :=
  ∀ (s : State) (rs rt rd : RegIx) (imm : Imm16), s.mem.wf = true →
    s.accessOk (effectiveAddress (s.readReg rs) (signExtended imm)) = true →
    ∃ t u, exec (.sw rs rt imm) s = .next t ∧ exec (.lw rs rd imm) t = .next u ∧
      u.readReg rd = if rd = 0 then 0 else s.readReg rt

/-! ### The instructions, one at a time -/

/-- `add` and `sub`: the low 32 bits of the mathematical sum and difference (41_alu_register.md R160, R161). -/
def Obligations.AddAndSubtract : Prop :=
  ∀ rs rt rd : RegIx,
    computes (.add rs rt rd) (encodeR rs rt rd 0 0x20) rd (fun d => BitVec.ofInt 32 (d.a.toInt + d.b.toInt))
      (fun s => BitVec.ofInt 32 ((s.readReg rs).toInt + (s.readReg rt).toInt)) ∧
    computes (.sub rs rt rd) (encodeR rs rt rd 0 0x22) rd (fun d => BitVec.ofInt 32 (d.a.toInt - d.b.toInt))
      (fun s => BitVec.ofInt 32 ((s.readReg rs).toInt - (s.readReg rt).toInt))

/-- `and`, `or` and `nor`, bit by bit (R162, R163, R164). -/
def Obligations.LogicOfRegisters : Prop :=
  ∀ rs rt rd : RegIx,
    computes (.and rs rt rd) (encodeR rs rt rd 0 0x24) rd (fun d => d.a &&& d.b)
      (fun s => s.readReg rs &&& s.readReg rt) ∧
    computes (.or rs rt rd) (encodeR rs rt rd 0 0x25) rd (fun d => d.a ||| d.b)
      (fun s => s.readReg rs ||| s.readReg rt) ∧
    computes (.nor rs rt rd) (encodeR rs rt rd 0 0x27) rd (fun d => ~~~(d.a ||| d.b))
      (fun s => ~~~(s.readReg rs ||| s.readReg rt))

/-- `slt` compares the signed values (R165). -/
def Obligations.SetOnLessThan : Prop :=
  ∀ rs rt rd : RegIx,
    computes (.slt rs rt rd) (encodeR rs rt rd 0 0x2A) rd (fun d => if d.a.toInt < d.b.toInt then 1 else 0)
      (fun s => if (s.readReg rs).toInt < (s.readReg rt).toInt then 1 else 0)

/-- The shifts, as products and quotients by a power of two: `sra` is the floor of the signed value's quotient (R166,
R167, R168). -/
def Obligations.Shifts : Prop :=
  ∀ (rt rd : RegIx) (shamt : Shamt),
    computes (.sll rt rd shamt) (encodeR 0 rt rd shamt 0x00) rd
      (fun d => BitVec.ofNat 32 (d.b.toNat * 2 ^ shamt.toNat))
      (fun s => BitVec.ofNat 32 ((s.readReg rt).toNat * 2 ^ shamt.toNat)) ∧
    computes (.srl rt rd shamt) (encodeR 0 rt rd shamt 0x02) rd
      (fun d => BitVec.ofNat 32 (d.b.toNat / 2 ^ shamt.toNat))
      (fun s => BitVec.ofNat 32 ((s.readReg rt).toNat / 2 ^ shamt.toNat)) ∧
    computes (.sra rt rd shamt) (encodeR 0 rt rd shamt 0x03) rd
      (fun d => BitVec.ofInt 32 (d.b.toInt / 2 ^ shamt.toNat))
      (fun s => BitVec.ofInt 32 ((s.readReg rt).toInt / 2 ^ shamt.toNat))

/-- `addi` and `slti` take the immediate as a signed number, `andi` and `ori` as an unsigned one (42_alu_immediate.md
R180 to R183). -/
def Obligations.ImmediateArithmetic : Prop :=
  ∀ (rs rt : RegIx) (imm : Imm16),
    computes (.addi rs rt imm) (encodeI 0x08 rs rt imm) rt (fun d => BitVec.ofInt 32 (d.a.toInt + d.imm.toInt))
      (fun s => BitVec.ofInt 32 ((s.readReg rs).toInt + imm.toInt)) ∧
    computes (.slti rs rt imm) (encodeI 0x0A rs rt imm) rt (fun d => if d.a.toInt < d.imm.toInt then 1 else 0)
      (fun s => if (s.readReg rs).toInt < imm.toInt then 1 else 0) ∧
    computes (.andi rs rt imm) (encodeI 0x0C rs rt imm) rt (fun d => d.a &&& d.imm)
      (fun s => s.readReg rs &&& BitVec.ofNat 32 imm.toNat) ∧
    computes (.ori rs rt imm) (encodeI 0x0D rs rt imm) rt (fun d => d.a ||| d.imm)
      (fun s => s.readReg rs ||| BitVec.ofNat 32 imm.toNat) ∧
    immOf (.instr (.addi rs rt imm)) (encodeI 0x08 rs rt imm) = BitVec.ofInt 32 imm.toInt ∧
    immOf (.instr (.slti rs rt imm)) (encodeI 0x0A rs rt imm) = BitVec.ofInt 32 imm.toInt ∧
    immOf (.instr (.andi rs rt imm)) (encodeI 0x0C rs rt imm) = BitVec.ofNat 32 imm.toNat ∧
    immOf (.instr (.ori rs rt imm)) (encodeI 0x0D rs rt imm) = BitVec.ofNat 32 imm.toNat

/-- The one addressing mode: the low 32 bits of base plus an offset from -32768 to 32767, in `exec` and in Execute; the
base register is not written, unless it is the destination of the load (43_load_store.md R192). -/
def Obligations.EffectiveAddress : Prop :=
  (∀ (base : Word) (imm : Imm16),
    effectiveAddress base (signExtended imm) = BitVec.ofInt 32 (base.toInt + imm.toInt) ∧
      -32768 ≤ imm.toInt ∧ imm.toInt ≤ 32767) ∧
  (∀ (d : IdEx) (rs rt : RegIx) (imm : Imm16),
    executeInstr (.lw rs rt imm) d = ⟨d.a + d.imm, .load, none⟩ ∧
    executeInstr (.sw rs rt imm) d = ⟨d.a + d.imm, .store, none⟩) ∧
  ∀ (s t : State) (rs rt : RegIx) (imm : Imm16),
    (exec (.sw rs rt imm) s = .next t → t.readReg rs = s.readReg rs) ∧
    (exec (.lw rs rt imm) s = .next t → rt ≠ rs → t.readReg rs = s.readReg rs)

/-- `lw` completes at an aligned address in range with the word in `rt`; at any other it raises `MEM_ACCESS`
(43_load_store.md R190). -/
def Obligations.LoadWord : Prop :=
  ∀ (s : State) (rs rt : RegIx) (imm : Imm16),
    let ea := effectiveAddress (s.readReg rs) (signExtended imm)
    decode (encodeI 0x23 rs rt imm) = .instr (.lw rs rt imm) ∧ destOf (.instr (.lw rs rt imm)) = rt ∧
    (∀ d, executeInstr (.lw rs rt imm) d = ⟨effectiveAddress d.a d.imm, .load, none⟩) ∧
    (ea.toNat % 4 = 0 ∧ ea.toNat + 4 ≤ s.params.memSize →
      completesWith (.lw rs rt imm) s rt (readWord s.mem ea.toNat)) ∧
    (¬(ea.toNat % 4 = 0 ∧ ea.toNat + 4 ≤ s.params.memSize) →
      ∃ n, exec (.lw rs rt imm) s = .fault (.memAccess ⟨.MEM, n, s.pc, encode (.lw rs rt imm)⟩))

/-- `sw` completes at an aligned address in range: the four bytes at the address are the register's, most significant
first, and nothing else changes but the pc; at any other address it raises `MEM_ACCESS` (43_load_store.md R191). -/
def Obligations.StoreWord : Prop :=
  ∀ (s : State) (rs rt : RegIx) (imm : Imm16),
    let ea := effectiveAddress (s.readReg rs) (signExtended imm)
    decode (encodeI 0x2B rs rt imm) = .instr (.sw rs rt imm) ∧ destOf (.instr (.sw rs rt imm)) = 0 ∧
    (∀ d, executeInstr (.sw rs rt imm) d = ⟨effectiveAddress d.a d.imm, .store, none⟩ ∧
      (d.toExMem (executeInstr (.sw rs rt imm) d)).store = d.b) ∧
    (ea.toNat % 4 = 0 ∧ ea.toNat + 4 ≤ s.params.memSize →
      ∃ t, exec (.sw rs rt imm) s = .next t ∧ t.pc = s.pc + 4 ∧ sameRegs s t ∧ sameOther s t ∧
        sameMemOutside s t ea.toNat ∧
        (s.mem.wf = true → ∀ k, k < 4 → readByte t.mem (ea.toNat + k) = byteOfWord (s.readReg rt) k)) ∧
    (¬(ea.toNat % 4 = 0 ∧ ea.toNat + 4 ≤ s.params.memSize) →
      ∃ n, exec (.sw rs rt imm) s = .fault (.memAccess ⟨.MEM, n, s.pc, encode (.sw rs rt imm)⟩))

/-- `beq` and `bne`: on equal operands `beq` is taken, on unequal ones `bne`; the target is `npc` plus four times the
signed offset; neither writes a register (44_branch_jump.md R200, R201, R208). -/
def Obligations.Branches : Prop :=
  (∀ (s : State) (rs rt : RegIx) (imm : Imm16),
    let target := BitVec.ofInt 32 ((s.pc + 4).toInt + 4 * imm.toInt)
    (s.readReg rs = s.readReg rt →
      transfersTo (.beq rs rt imm) s target ∧ transfersTo (.bne rs rt imm) s (s.pc + 4)) ∧
    (s.readReg rs ≠ s.readReg rt →
      transfersTo (.beq rs rt imm) s (s.pc + 4) ∧ transfersTo (.bne rs rt imm) s target)) ∧
  ∀ (d : IdEx) (rs rt : RegIx) (imm : Imm16),
    decode (encodeI 0x04 rs rt imm) = .instr (.beq rs rt imm) ∧
    decode (encodeI 0x05 rs rt imm) = .instr (.bne rs rt imm) ∧
    destOf (.instr (.beq rs rt imm)) = 0 ∧ destOf (.instr (.bne rs rt imm)) = 0 ∧
    executeInstr (.beq rs rt imm) d =
      ⟨d.npc + d.imm * 4#32, .none, if d.a = d.b then some (d.npc + d.imm * 4#32) else none⟩ ∧
    executeInstr (.bne rs rt imm) d =
      ⟨d.npc + d.imm * 4#32, .none, if d.a ≠ d.b then some (d.npc + d.imm * 4#32) else none⟩

/-- `j` goes to the target field's word in the 256 MiB region of `npc`; `jr` goes to the register's value, aligned or not
(44_branch_jump.md R202, R203). -/
def Obligations.JumpAndJumpRegister : Prop :=
  (∀ (s : State) (target : Target26),
    transfersTo (.j target) s
      (BitVec.ofNat 32 ((s.pc + 4).toNat / 268435456 * 268435456 + target.toNat * 4))) ∧
  (∀ (s : State) (rs : RegIx), transfersTo (.jr rs) s (s.readReg rs)) ∧
  ∀ (d : IdEx) (rs : RegIx) (target : Target26),
    let dst := BitVec.ofNat 32 (d.npc.toNat / 268435456 * 268435456 + target.toNat * 4)
    decode (encodeJ 0x02 target) = .instr (.j target) ∧ decode (encodeR rs 0 0 0 0x08) = .instr (.jr rs) ∧
    destOf (.instr (.j target)) = 0 ∧ destOf (.instr (.jr rs)) = 0 ∧
    executeInstr (.j target) d = ⟨dst, .none, some dst⟩ ∧ executeInstr (.jr rs) d = ⟨d.a, .none, some d.a⟩

/-- `jal` writes the address of the next instruction into register 31 and goes where `j` goes (44_branch_jump.md R204). -/
def Obligations.JumpAndLink : Prop :=
  (∀ (s : State) (target : Target26),
    ∃ t, exec (.jal target) s = .next t ∧ onlyReg s t 31 (s.pc + 4) ∧
      t.pc = BitVec.ofNat 32 ((s.pc + 4).toNat / 268435456 * 268435456 + target.toNat * 4) ∧
      sameMem s t ∧ sameOther s t) ∧
  ∀ (d : IdEx) (target : Target26),
    decode (encodeJ 0x03 target) = .instr (.jal target) ∧ destOf (.instr (.jal target)) = 31 ∧
    executeInstr (.jal target) d =
      ⟨d.npc, .none, some (BitVec.ofNat 32 (d.npc.toNat / 268435456 * 268435456 + target.toNat * 4))⟩

/-- From an aligned pc only `jr` completes with a misaligned one (10_state.md R36, 44_branch_jump.md R207). -/
def Obligations.OnlyJumpRegisterMisaligns : Prop :=
  ∀ (i : Instr) (s t : State), s.pc.toNat % 4 = 0 → exec i s = .next t → t.pc.toNat % 4 ≠ 0 →
    ∃ rs, i = .jr rs ∧ (s.readReg rs).toNat % 4 ≠ 0

/-- An instruction's effect by itself is its passage: Execute's row on the latch that Decode makes of its encoding,
completed (00_scope.md R11). -/
def Obligations.ExecIsThePassage : Prop :=
  ∀ (i : Instr) (s : State),
    exec i s = s.complete i (executeInstr i (s.issue ⟨encode i, s.npc, s.pc, encode i⟩))
      (s.readReg (rtOf (encode i)))

/-! ### The sequential machine -/

/-- Where the bytes at the pc decode to an instruction, a step of the sequential machine is that instruction's `exec` and
nothing more: `exec` moves the pc itself (70_reset_and_hazards.md R284). -/
def Obligations.StepRunsDecodedInstruction : Prop :=
  ∀ (s : State) (i : Instr), s.sequencing = true → s.pc.toNat % 4 = 0 → s.pc.toNat + 4 ≤ s.params.fetchEnd →
    decodeBytes [readByte s.mem s.pc.toNat, readByte s.mem (s.pc.toNat + 1), readByte s.mem (s.pc.toNat + 2),
      readByte s.mem (s.pc.toNat + 3)] = .ok (i, []) →
    step s = exec i s

/-- The sequential machine's step, case by case (70_reset_and_hazards.md R284). That its stop is a next state equal to
the present one, and the tick number in its diagnostics, are the model's choices (assumption logs 6 and 7). -/
def Obligations.SequentialStep : Prop :=
  ∀ s : State, s.sequencing = true →
    (s.pc.toNat % 4 ≠ 0 → step s = .fault (.fetchMisaligned ⟨.IF, s.cycle + 1, s.pc, 0⟩)) ∧
    (s.pc.toNat % 4 = 0 → s.params.fetchEnd < s.pc.toNat + 4 → step s = .next s) ∧
    (s.pc.toNat % 4 = 0 → s.pc.toNat + 4 ≤ s.params.fetchEnd →
      (∀ i, decode (readWord s.mem s.pc.toNat) = .instr i → step s = exec i s) ∧
      (∀ w, decode (readWord s.mem s.pc.toNat) = .illegal w →
        step s = .fault (.unsupported ⟨.EX, s.cycle + 1, s.pc, readWord s.mem s.pc.toNat⟩)))

/-- The model's own placing of one instruction (assumption log 3): the very next step runs exactly it. -/
def Obligations.WithFetchWordRunsTheWord : Prop :=
  ∀ (s : State) (i : Instr), s.running = true → s.mem.wf = true → s.pc.toNat % 4 = 0 →
    s.pc.toNat + 4 ≤ s.params.fetchEnd →
    step (s.withFetchWord 32 (encode i).toNat) = exec i (s.withFetchWord 32 (encode i).toNat)

/-! ### The stages of a tick -/

/-- Write-back writes the register its latch names, no other stage writes one, and Write-back does not halt
(40_pipeline_stages.md R122). -/
def Obligations.WriteBackIsTheOnlyRegisterWriter : Prop :=
  (∀ s t : State, s.ticking = true → step s = .next t →
    match s.memwb with
    | none => sameRegs s t
    | some l => onlyReg s t l.dest l.value) ∧
  ∀ (s : State) (f : Fault), s.ticking = true → step s = .fault f → f.diagnostic.stage ≠ .WB

/-- Memory access: what it hands on and what it stores, for each kind of operation, and that the address of a completed
access passed the check; no other stage writes memory (40_pipeline_stages.md R123, R124). -/
def Obligations.MemoryAccessStage : Prop :=
  ∀ s t : State, s.ticking = true → step s = .next t →
    match s.exmem with
    | none => sameMem s t ∧ t.memwb = none
    | some m =>
      match m.memop with
      | .none => sameMem s t ∧ t.memwb = some ⟨m.result, m.dest, m.tPc, m.tIr⟩
      | .load =>
        s.accessOk m.result = true ∧ sameMem s t ∧
        t.memwb = some ⟨readWord s.mem m.result.toNat, m.dest, m.tPc, m.tIr⟩
      | .store =>
        s.accessOk m.result = true ∧ sameMemOutside s t m.result.toNat ∧ t.memwb = some ⟨m.result, 0, m.tPc, m.tIr⟩ ∧
        (s.mem.wf = true → readWord t.mem m.result.toNat = m.store)

/-- A load or store at a misaligned or out-of-range address halts the tick in Memory access, whatever else is in flight:
the older instruction's error is the one reported; at any other address there is no such halt (40_pipeline_stages.md
R125, 60_exceptions.md R245). -/
def Obligations.BadAccessHalts : Prop :=
  ∀ (s : State) (m : ExMem), s.ticking = true → s.exmem = some m → m.memop ≠ .none →
    if m.result.toNat % 4 ≠ 0 ∨ s.params.memSize < m.result.toNat + 4 then
      step s = .fault (.memAccess ⟨.MEM, s.cycle + 1, m.tPc, m.tIr⟩)
    else ∀ d, step s ≠ .fault (.memAccess d)

/-- An unsupported encoding in Execute halts the tick, unless Memory access has halted it first; nothing else halts with
that cause (40_pipeline_stages.md R129, 60_exceptions.md R244). -/
def Obligations.UnsupportedEncodingHalts : Prop :=
  (∀ (s : State) (d : IdEx) (w : Word), s.ticking = true → s.accessPasses = true → s.idex = some d →
    d.op = .illegal w → step s = .fault (.unsupported ⟨.EX, s.cycle + 1, d.tPc, d.tIr⟩)) ∧
  ∀ (s : State) (g : Diagnostic), s.ticking = true → step s = .fault (.unsupported g) →
    ∃ d w, s.idex = some d ∧ d.op = .illegal w

/-- A taken transfer in Execute overwrites the pc and discards what Decode and Fetch hold, whatever it is; in the next
tick Fetch reads the target and Decode and Execute pass bubbles on (45_hazard_unit.md R226). -/
def Obligations.TakenTransferFlushes : Prop :=
  ∀ (s : State) (d : IdEx) (target : Word), s.ticking = true → s.accessPasses = true → s.idex = some d →
    redirectOf d = some target →
    ∃ t, step s = .next t ∧ t.pc = target ∧ t.ifid = none ∧ t.idex = none ∧ t.exmem.isSome = true ∧
      (target.toNat % 4 = 0 → target.toNat + 4 ≤ s.params.fetchEnd →
        ∃ u, step t = .next u ∧ u.pc = target + 4 ∧ u.idex = none ∧ u.exmem = none ∧
          u.ifid = some ⟨readWord t.mem target.toNat, target + 4, target, readWord t.mem target.toNat⟩)

/-- A flush beats a hold: the instruction in Decode is discarded whatever hazard it has, no hold is requested, and the
IF/ID latch is emptied; the tick after a hold never flushes (45_hazard_unit.md R227). What
the views read where Decode is not evaluated is the model's choice (assumption log 16). -/
def Obligations.FlushBeatsHold : Prop :=
  (∀ (s : State), s.flushing = true → s.holding = false ∧ s.stallRequest = none ∧
    (s.ticking = true → ∀ t, step s = .next t → t.ifid = none ∧ t.idex = none)) ∧
  ∀ s t : State, s.ticking = true → s.holding = true → step s = .next t → t.flushing = false

/-- The hazard condition: a producer in Execute or Memory access, never with destination 0, that either register field of
an R-format or I-format word names (45_hazard_unit.md R220). -/
def Obligations.HazardCondition : Prop :=
  ∀ (s : State) (ir : Word),
    s.hazard ir = true ↔
      ∃ dest : RegIx, dest ≠ 0 ∧
        ((∃ d, s.idex = some d ∧ d.dest = dest) ∨ (∃ m, s.exmem = some m ∧ m.dest = dest)) ∧
        (dest = rsOf ir ∨ dest = rtOf ir) ∧
        ∃ i, decode ir = .instr i ∧ i.format ≠ .j

/-- A hold: Decode issues a bubble, the IF/ID latch and the pc stay, and the older instructions advance (45_hazard_unit.md
R223). -/
def Obligations.HoldKeepsDecodeAndFetch : Prop :=
  ∀ (s : State) (f : IfId), s.ticking = true → s.accessPasses = true → s.executePasses = true →
    s.flushing = false → s.ifid = some f → s.hazard f.ir = true →
    ∃ t, step s = .next t ∧ t.ifid = some f ∧ t.idex = none ∧ t.pc = s.pc ∧
      (s.idex = none → t.exmem = none) ∧
      (∀ d i, s.idex = some d → d.op = .instr i → t.exmem = some (d.toExMem (executeInstr i d))) ∧
      t.memwb.isSome = s.exmem.isSome

/-- An instruction that Decode issues is latched with the register values after this tick's Write-back
(40_pipeline_stages.md R131). -/
def Obligations.IssueLatchesOperands : Prop :=
  ∀ (s : State) (f : IfId), s.ticking = true → s.accessPasses = true → s.executePasses = true →
    s.flushing = false → s.ifid = some f → s.hazard f.ir = false → s.pc.toNat % 4 = 0 →
    ∃ t, step s = .next t ∧
      t.idex = some
        { npc := f.npc, a := t.readReg (rsOf f.ir), b := t.readReg (rtOf f.ir), imm := immOf (decode f.ir) f.ir,
          dest := destOf (decode f.ir), op := decode f.ir, tPc := f.tPc, tIr := f.tIr }

/-- Fetch with no flush and no hold: the misaligned halt, the idle tick, or the fetch of the word at the pc, which is
inside the memory and sees this tick's store (40_pipeline_stages.md R136, R137, R138). -/
def Obligations.FetchStage : Prop :=
  ∀ s : State, s.ticking = true → s.accessPasses = true → s.executePasses = true → s.flushing = false →
    s.holding = false →
    (s.pc.toNat % 4 ≠ 0 → step s = .fault (.fetchMisaligned ⟨.IF, s.cycle + 1, s.pc, 0⟩)) ∧
    (s.pc.toNat % 4 = 0 → s.params.fetchEnd < s.pc.toNat + 4 →
      ∃ t, step s = .next t ∧ t.ifid = none ∧ t.pc = s.pc) ∧
    (s.pc.toNat % 4 = 0 → s.pc.toNat + 4 ≤ s.params.fetchEnd →
      s.pc.toNat + 4 ≤ s.params.memSize ∧ ∃ t, step s = .next t ∧ t.pc = s.pc + 4 ∧
        t.ifid = some ⟨readWord t.mem s.pc.toNat, s.pc + 4, s.pc, readWord t.mem s.pc.toNat⟩)

/-- How the pc advances in a tick: to the target of a taken transfer, by 4 in a tick that fetches, and otherwise not
(10_state.md R35). -/
def Obligations.PcAdvance : Prop :=
  ∀ s t : State, s.ticking = true → step s = .next t →
    (∀ d target, s.idex = some d → redirectOf d = some target → t.pc = target ∧ s.fetching = false) ∧
    (s.fetching = true → t.pc = s.pc + 4) ∧
    (s.flushing = false → s.fetching = false → t.pc = s.pc)

/-- Execute reads its own latch alone: what it hands on is the row of its instruction on the operands latched in Decode,
and two ticks with the same ID/EX latch hand on the same EX/MEM latch, whatever the rest of the core holds
(41_alu_register.md R170). -/
def Obligations.ExecuteReadsOnlyItsLatch : Prop :=
  (∀ s s' t t' : State, s.ticking = true → s'.ticking = true → s.idex = s'.idex →
    step s = .next t → step s' = .next t' → t.exmem = t'.exmem) ∧
  ∀ (s t : State) (d : IdEx) (i : Instr), s.ticking = true → s.idex = some d → d.op = .instr i → step s = .next t →
    t.exmem = some (d.toExMem (executeInstr i d))

/-! ### Stalls -/

/-- A hold never lasts more than two consecutive ticks: each sends a bubble into Execute (45_hazard_unit.md R228). -/
def Obligations.HoldAtMostTwoTicks : Prop :=
  ∀ s t u : State, s.ticking = true → s.holding = true → step s = .next t → t.holding = true → step t = .next u →
    t.idex = none ∧ u.idex = none ∧ u.exmem = none ∧ u.holding = false

/-- The stall request counts the hold ticks still to come, the present one included: 2 for a producer in Execute, 1 for
one in Memory access alone, and it reads 2 then 1 then none (45_hazard_unit.md R224). What it reads where Decode is not
evaluated is the model's choice (assumption log 16). -/
def Obligations.StallRequestCountsDown : Prop :=
  ∀ s : State,
    (∀ f, s.ifid = some f → s.flushing = false → s.hazard f.ir = true →
      s.stallRequest = some (if s.hazardEx f.ir then 2 else 1)) ∧
    (s.ticking = true → ∀ t, step s = .next t →
      (s.stallRequest = some 2 → t.stallRequest = some 1) ∧ (s.stallRequest = some 1 → t.stallRequest = none))

/-! ### The halt, the end of a run, reset -/

/-- A halted core stays as it is, and answers every step with its halt record; reset clears it (10_state.md R47). That a
step then answers with a fault is the model's form of the halt (assumption log 5). -/
def Obligations.HaltedCoreStays : Prop :=
  ∀ (s : State) (r : HaltRecord), s.halt = some r →
    tick s = s ∧ (s.params.wellFormed = true → step s = .fault (Fault.ofRecord r)) ∧ s.assertReset.halt = none

/-- The stall length is always determined and at most 2, and the reserved cause is never raised (60_exceptions.md R247).
What the request reads where Decode is not evaluated is the model's choice (assumption log 16). -/
def Obligations.HazardFailureNeverRaised : Prop :=
  (∀ (s : State) (f : IfId), s.ifid = some f → s.holding = true → s.stallRequest = some 1 ∨ s.stallRequest = some 2) ∧
  ∀ (s : State) (f : Fault), s.halt = none → step s = .fault f → f.cause ≠ .hazardFailure

/-- The diagnostic of a halt names the stage, the tick and the instruction, each cause under its condition
(60_exceptions.md R242). -/
def Obligations.HaltDiagnostic : Prop :=
  ∀ (s : State) (f : Fault), s.ticking = true → step s = .fault f →
    f.diagnostic.cycle = s.cycle + 1 ∧
    ((f.cause = .memAccess ∧ f.diagnostic.stage = .MEM ∧
        ∃ m, s.exmem = some m ∧ m.memop ≠ .none ∧ s.accessOk m.result = false ∧
          f.diagnostic.tPc = m.tPc ∧ f.diagnostic.tIr = m.tIr) ∨
     (f.cause = .unsupported ∧ f.diagnostic.stage = .EX ∧
        ∃ d w, s.idex = some d ∧ d.op = .illegal w ∧ f.diagnostic.tPc = d.tPc ∧ f.diagnostic.tIr = d.tIr) ∨
     (f.cause = .fetchMisaligned ∧ f.diagnostic.stage = .IF ∧ s.pc.toNat % 4 ≠ 0 ∧
        f.diagnostic.tPc = s.pc ∧ f.diagnostic.tIr = 0))

/-- A step refuses exactly where the parameters break their constraints (93_implementation_defined.md U10). -/
def Obligations.RefusesOnlyBadParameters : Prop :=
  ∀ s : State, (s.params.wellFormed = false → step s = .refused .badParameters) ∧
    ∀ r, step s = .refused r → s.params.wellFormed = false

/-- In a Drained state a tick changes nothing but the tick counter (70_reset_and_hazards.md R276). -/
def Obligations.DrainedTickOnlyCounts : Prop :=
  ∀ s : State, s.ticking = true → s.drained = true → step s = .next { s with cycle := s.cycle + 1 }

/-- With Fetch idle and nothing before Memory access, the core is Drained two ticks later (70_reset_and_hazards.md R276). -/
def Obligations.IdleCoreDrainsInTwoTicks : Prop :=
  ∀ s : State, s.ticking = true → s.accessPasses = true → s.ifid = none → s.idex = none → s.pc.toNat % 4 = 0 →
    s.params.fetchEnd < s.pc.toNat + 4 →
    ∃ t u, step s = .next t ∧ step t = .next u ∧ u.drained = true ∧ u.pc = s.pc

/-- What reset establishes, for every choice of the parameters, and from every state, a halted one included
(70_reset_and_hazards.md R270). -/
def Obligations.ResetEstablishes : Prop :=
  ∀ p : Params,
    let s := State.resetWith p
    s.readReg 0 = 0 ∧ s.x[0] = 0 ∧
    (∀ r : RegIx, r ≠ 0 → s.readReg r = p.gprInit[r.toNat - 1]'(by have := r.isLt; omega)) ∧
    s.pc = p.resetPc ∧ s.mem = p.memInit ∧ s.ifid = none ∧ s.idex = none ∧ s.exmem = none ∧ s.memwb = none ∧
    s.halt = none ∧ s.cycle = 0 ∧
    ∀ u : State, u.params = p →
      u.assertReset.x = s.x ∧ u.assertReset.pc = s.pc ∧ u.assertReset.mem = s.mem ∧ u.assertReset.ifid = none ∧
      u.assertReset.idex = none ∧ u.assertReset.exmem = none ∧ u.assertReset.memwb = none ∧
      u.assertReset.halt = none ∧ u.assertReset.cycle = 0

/-- The first ticks: the first instruction is fetched in tick 1, decoded in tick 2 beside the second fetch, executed in
tick 3, in Memory access in tick 4; no register is written before tick 5 and no memory before tick 4
(70_reset_and_hazards.md R275). -/
def Obligations.FirstTicks : Prop :=
  ∀ p : Params, p.wellFormed = true → p.resetPc.toNat + 4 ≤ p.fetchEnd →
    let s := State.resetWith p
    (∃ t, step s = .next t ∧
      t.ifid = some ⟨readWord p.memInit p.resetPc.toNat, p.resetPc + 4, p.resetPc,
        readWord p.memInit p.resetPc.toNat⟩ ∧ t.idex = none ∧ t.exmem = none ∧ t.memwb = none) ∧
    (∃ t d, Sys2Proof.core.run 2 s = .next t ∧ t.idex = some d ∧ d.tPc = p.resetPc ∧ t.exmem = none ∧
      t.memwb = none ∧
      (p.resetPc.toNat + 8 ≤ p.fetchEnd → ∃ f, t.ifid = some f ∧ f.tPc = p.resetPc + 4)) ∧
    ∀ t, (Sys2Proof.core.run 3 s = .next t →
        (∃ m, t.exmem = some m ∧ m.tPc = p.resetPc) ∧ t.memwb = none ∧ t.mem = s.mem ∧ t.x = s.x) ∧
      (Sys2Proof.core.run 4 s = .next t → (∃ l, t.memwb = some l ∧ l.tPc = p.resetPc) ∧ t.x = s.x)

/-! ### Invariants -/

/-- No step changes the parameters, which are not state (10_state.md R30), or the level, the model's own field
(assumption log 3). -/
def Obligations.ParametersNeverChange : Prop :=
  ∀ s t : State, step s = .next t → t.params = s.params ∧ t.level = s.level

/-- Every step keeps the state invariant: well-formed parameters, canonical memory inside `MEM_SIZE`, nothing in the
place of register 0. -/
def Obligations.StepKeepsInvariant : Prop :=
  ∀ s t : State, s.invariant = true → step s = .next t → t.invariant = true

/-- The state invariant holds at reset, for all well-formed parameters and for the standard ones. -/
def Obligations.InvariantAtReset : Prop :=
  State.reset.invariant = true ∧ ∀ p : Params, p.wellFormed = true → (State.resetWith p).invariant = true

/-- Every tick keeps the latches coherent: what Decode issued is what its word decodes to, its operands are the values
left by all older instructions, and the pc follows the youngest latch (45_hazard_unit.md R229). -/
def Obligations.TickKeepsCoherence : Prop :=
  ∀ s t : State, s.ticking = true → s.coherent = true → step s = .next t → t.coherent = true

/-- The latches are coherent at reset, in a state that ticks. -/
def Obligations.CoherentAtReset : Prop :=
  State.reset.ticking = true ∧
    ∀ p : Params, p.wellFormed = true → (State.resetWith p).ticking = true ∧ (State.resetWith p).coherent = true

/-! ### The pipeline implements the sequential machine -/

/-- A tick with an instruction in Execute performs exactly that instruction's `exec` on the architectural view; if the
instruction's own access will halt, the view's outcome is that fault (70_reset_and_hazards.md R283). -/
def Obligations.TickPerformsExecutedInstruction : Prop :=
  ∀ (s t : State) (d : IdEx) (i : Instr), s.ticking = true → s.coherent = true → s.idex = some d →
    d.op = .instr i → step s = .next t →
    ∃ a, s.archView = .next a ∧ sameOutcome (exec i a) t.archView = true

/-- A tick with a bubble in Execute leaves the architectural view as it is (70_reset_and_hazards.md R283). -/
def Obligations.BubbleTickKeepsView : Prop :=
  ∀ s t : State, s.ticking = true → s.coherent = true → s.idex = none → step s = .next t →
    sameOutcome s.archView t.archView = true

/-- A tick that halts reports the error that the sequential machine meets on the architectural view: the same cause and
the same offending instruction, if the fetch was not stale (70_reset_and_hazards.md R283). -/
def Obligations.HaltIsTheSequentialFault : Prop :=
  ∀ (s : State) (f : Fault), s.ticking = true → s.coherent = true → s.fetchFresh = true → step s = .fault f →
    (∃ g, s.archView = .fault g ∧ f.sameError g = true) ∨
    (∃ a g, s.archView = .next a ∧ step a = .fault g ∧ f.sameError g = true)

/-- A run of the pipeline whose fetches are never stale is a run of the sequential machine: after any number of ticks the
architectural view is the state that some number of sequential steps, no greater, reaches (70_reset_and_hazards.md
R283, with R281's condition as the premise). -/
def Obligations.PipelineRefinesSequentialMachine : Prop :=
  ∀ (k : Nat) (s t a b : State), s.ticking = true → s.coherent = true →
    Sys2Proof.core.run k s = .next t →
    (∀ j u, j < k → Sys2Proof.core.run j s = .next u → u.fetchFresh = true) →
    s.archView = .next a → t.archView = .next b →
    ∃ n c, n ≤ k ∧ Sys2Proof.core.run n a = .next c ∧ c.sameArch b = true
end

