-- ==== Sys2Proof/Laws/Memory.lean ====
section
/-! SUPPORT. The laws of the memory image: read after write, the canonical form, the extent. -/

namespace Sys2Proof.Machine

@[simp] theorem readByte_nil (a : Nat) : readByte [] a = unlistedByte := rfl

theorem canonicalFrom_cons (lo k : Nat) (u : Byte) (m : Memory) :
    canonicalFrom lo ((k, u) :: m) = true ↔ lo ≤ k ∧ u ≠ unlistedByte ∧ canonicalFrom (k + 1) m = true := by
  simp [canonicalFrom, and_assoc]

theorem canonicalFrom_mono {lo lo' : Nat} {m : Memory} (h : lo' ≤ lo) (hm : canonicalFrom lo m = true) :
    canonicalFrom lo' m = true := by
  cases m with
  | nil => rfl
  | cons c m =>
    obtain ⟨k, u⟩ := c
    rw [canonicalFrom_cons] at hm ⊢
    exact ⟨by omega, hm.2⟩

/-- Below its first address a canonical image lists nothing. -/
theorem readByte_below {lo a : Nat} {m : Memory} (hm : canonicalFrom lo m = true) (ha : a < lo) :
    readByte m a = unlistedByte := by
  induction m generalizing lo with
  | nil => rfl
  | cons c m ih =>
    obtain ⟨k, u⟩ := c
    rw [canonicalFrom_cons] at hm
    have hk : k ≠ a := by omega
    simpa [readByte, hk] using ih hm.2.2 (by omega)

/-- A write leaves every other byte alone, in any image. -/
theorem readByte_writeByte_other (m : Memory) {a b : Nat} (v : Byte) (h : b ≠ a) :
    readByte (writeByte m a v) b = readByte m b := by
  induction m with
  | nil => by_cases hv : v = unlistedByte <;> simp [writeByte, readByte, hv, Ne.symm h]
  | cons c m ih =>
    obtain ⟨k, u⟩ := c
    simp only [writeByte]
    split_ifs with h1 h2 h3 h4
    · rfl
    · simp [readByte, Ne.symm h]
    · subst h3; simp [readByte, Ne.symm h]
    · subst h3; simp [readByte, Ne.symm h]
    · simp [readByte, ih]

/-- A read of the byte just written gives the value, in a canonical image. -/
theorem readByte_writeByte_same {lo : Nat} {m : Memory} (hm : canonicalFrom lo m = true) (a : Nat) (v : Byte) :
    readByte (writeByte m a v) a = v := by
  induction m generalizing lo with
  | nil => by_cases hv : v = unlistedByte <;> simp [writeByte, readByte, hv]
  | cons c m ih =>
    obtain ⟨k, u⟩ := c
    rw [canonicalFrom_cons] at hm
    simp only [writeByte]
    split_ifs with h1 h2 h3 h4
    · have hk : k ≠ a := by omega
      simpa [readByte, hk, h2] using readByte_below hm.2.2 (by omega)
    · simp [readByte]
    · subst h3; subst h4; exact readByte_below hm.2.2 (by omega)
    · simp [readByte]
    · have hk : k ≠ a := fun e => h3 e.symm
      simpa [readByte, hk] using ih hm.2.2

/-- A write keeps the canonical form. -/
theorem canonicalFrom_writeByte {lo : Nat} {m : Memory} (hm : canonicalFrom lo m = true) {a : Nat} (ha : lo ≤ a)
    (v : Byte) : canonicalFrom lo (writeByte m a v) = true := by
  induction m generalizing lo with
  | nil => by_cases hv : v = unlistedByte <;> simp [writeByte, canonicalFrom, hv, ha]
  | cons c m ih =>
    obtain ⟨k, u⟩ := c
    have hm' := (canonicalFrom_cons _ _ _ _).1 hm
    simp only [writeByte]
    split_ifs with h1 h2 h3 h4
    · exact hm
    · simp only [canonicalFrom_cons]
      exact ⟨ha, h2, by omega, hm'.2⟩
    · exact canonicalFrom_mono (by omega) hm'.2.2
    · subst h3
      exact (canonicalFrom_cons _ _ _ _).2 ⟨ha, h4, hm'.2.2⟩
    · exact (canonicalFrom_cons _ _ _ _).2 ⟨hm'.1, hm'.2.1, ih hm'.2.2 (by omega)⟩

/-- A write below `n` keeps the image below `n`. -/
theorem below_writeByte {n : Nat} {m : Memory} (hm : m.below n = true) {a : Nat} (ha : a < n) (v : Byte) :
    (writeByte m a v).below n = true := by
  induction m with
  | nil => by_cases hv : v = unlistedByte <;> simp [writeByte, Memory.below, hv, ha]
  | cons c m ih =>
    obtain ⟨k, u⟩ := c
    have hm' : k < n ∧ Memory.below n m = true := by simpa [Memory.below] using hm
    have hcons : ∀ (k : Nat) (u : Byte) (m : Memory), k < n → Memory.below n m = true →
        Memory.below n ((k, u) :: m) = true := by
      intro k u m h1 h2; simpa [Memory.below, h1] using h2
    simp only [writeByte]
    split_ifs
    · exact hm
    · exact hcons _ _ _ ha hm
    · exact hm'.2
    · exact hcons _ _ _ ha hm'.2
    · exact hcons _ _ _ hm'.1 (ih hm'.2)

/-! ### The image as a whole -/

theorem wf_nil : Memory.wf [] = true := rfl

theorem wf_writeByte {m : Memory} (hm : m.wf = true) (a : Nat) (v : Byte) : Memory.wf (writeByte m a v) = true :=
  canonicalFrom_writeByte hm (Nat.zero_le a) v

theorem readByte_writeByte {m : Memory} (hm : m.wf = true) (a b : Nat) (v : Byte) :
    readByte (writeByte m a v) b = if b = a then v else readByte m b := by
  split_ifs with h
  · subst h; exact readByte_writeByte_same hm b v
  · exact readByte_writeByte_other m v h

/-- Every memory operation keeps the canonical form: storing a word. -/
theorem wf_writeWord {m : Memory} (hm : m.wf = true) (a : Nat) (v : Word) : Memory.wf (writeWord m a v) = true :=
  wf_writeByte (wf_writeByte (wf_writeByte (wf_writeByte hm _ _) _ _) _ _) _ _

/-- Every memory operation keeps the canonical form: laying out words. -/
theorem wf_writeWords (vs : List Word) {m : Memory} (hm : m.wf = true) (a : Nat) :
    Memory.wf (writeWords m a vs) = true := by
  induction vs generalizing m a with
  | nil => exact hm
  | cons v vs ih => exact ih (wf_writeWord hm a v) (a + 4)

theorem below_writeWord {n : Nat} {m : Memory} (hm : m.below n = true) {a : Nat} (ha : a + 4 ≤ n) (v : Word) :
    (writeWord m a v).below n = true :=
  below_writeByte (below_writeByte (below_writeByte (below_writeByte hm (by omega) _) (by omega) _) (by omega) _)
    (by omega) _

/-- A word write leaves every byte outside its four alone, in any image. -/
theorem readByte_writeWord_other (m : Memory) {a b : Nat} (v : Word) (h : b < a ∨ a + 4 ≤ b) :
    readByte (writeWord m a v) b = readByte m b := by
  unfold writeWord
  rw [readByte_writeByte_other _ _ (by omega), readByte_writeByte_other _ _ (by omega),
    readByte_writeByte_other _ _ (by omega), readByte_writeByte_other _ _ (by omega)]

end Sys2Proof.Machine
end

