-- ==== Sys2Proof/Laws/State.lean ====
section
/-!
SUPPORT. One lemma per field per update of the state, so that no later proof unfolds a record update; and the laws of the
register accessors.
-/

namespace Sys2Proof.Machine

/-! ### Registers -/

@[simp] theorem State.readReg_zero (s : State) : s.readReg 0#5 = 0#32 := rfl

@[simp] theorem State.writeReg_zero (s : State) (v : Word) : s.writeReg 0#5 v = s := rfl

/-- Everything a register write can do, seen through the register reads. -/
theorem State.readReg_writeReg (s : State) (r q : RegIx) (v : Word) :
    (s.writeReg r v).readReg q = if q = r then (if r = 0#5 then 0#32 else v) else s.readReg q := by
  unfold State.writeReg State.readReg
  by_cases hr : r = 0#5
  · subst hr; by_cases hq : q = 0#5 <;> simp [hq]
  · by_cases hq : q = 0#5
    · subst hq; simp only [hr, if_false, if_true]; rw [if_neg (Ne.symm hr)]
    · by_cases hqr : q = r
      · subst hqr; simp [hr]
      · have hne : r.toNat ≠ q.toNat := fun e => hqr (BitVec.eq_of_toNat_eq e.symm)
        simp [hr, hq, hqr, Vector.getElem_set_ne, hne]

theorem State.readReg_writeReg_same (s : State) {r : RegIx} (h : r ≠ 0#5) (v : Word) :
    (s.writeReg r v).readReg r = v := by simp [State.readReg_writeReg, h]

theorem State.readReg_writeReg_other (s : State) {r q : RegIx} (h : q ≠ r) (v : Word) :
    (s.writeReg r v).readReg q = s.readReg q := by simp [State.readReg_writeReg, h]

/-- A register write touches nothing in the place of the hard-wired register. -/
@[simp] theorem State.writeReg_slot_zero (s : State) (r : RegIx) (v : Word) : (s.writeReg r v).x[0] = s.x[0] := by
  unfold State.writeReg
  split
  · rfl
  · next h =>
    have : r.toNat ≠ 0 := fun e => h (BitVec.eq_of_toNat_eq e)
    simp [Vector.getElem_set_ne, this]

/-- The reads depend on the register file alone. -/
theorem State.readReg_congr {s t : State} (h : t.x = s.x) (r : RegIx) : t.readReg r = s.readReg r := by
  simp [State.readReg, h]

@[simp] theorem State.writeReg_params (s : State) (r : RegIx) (v : Word) : (s.writeReg r v).params = s.params := by
  unfold State.writeReg; split <;> rfl
@[simp] theorem State.writeReg_level (s : State) (r : RegIx) (v : Word) : (s.writeReg r v).level = s.level := by
  unfold State.writeReg; split <;> rfl
@[simp] theorem State.writeReg_pc (s : State) (r : RegIx) (v : Word) : (s.writeReg r v).pc = s.pc := by
  unfold State.writeReg; split <;> rfl
@[simp] theorem State.writeReg_mem (s : State) (r : RegIx) (v : Word) : (s.writeReg r v).mem = s.mem := by
  unfold State.writeReg; split <;> rfl
@[simp] theorem State.writeReg_ifid (s : State) (r : RegIx) (v : Word) : (s.writeReg r v).ifid = s.ifid := by
  unfold State.writeReg; split <;> rfl
@[simp] theorem State.writeReg_idex (s : State) (r : RegIx) (v : Word) : (s.writeReg r v).idex = s.idex := by
  unfold State.writeReg; split <;> rfl
@[simp] theorem State.writeReg_exmem (s : State) (r : RegIx) (v : Word) : (s.writeReg r v).exmem = s.exmem := by
  unfold State.writeReg; split <;> rfl
@[simp] theorem State.writeReg_memwb (s : State) (r : RegIx) (v : Word) : (s.writeReg r v).memwb = s.memwb := by
  unfold State.writeReg; split <;> rfl
@[simp] theorem State.writeReg_halt (s : State) (r : RegIx) (v : Word) : (s.writeReg r v).halt = s.halt := by
  unfold State.writeReg; split <;> rfl
@[simp] theorem State.writeReg_cycle (s : State) (r : RegIx) (v : Word) : (s.writeReg r v).cycle = s.cycle := by
  unfold State.writeReg; split <;> rfl

/-! ### setPc -/

@[simp] theorem State.setPc_params (s : State) (t : Word) :
    (s.setPc t).params = s.params := rfl
@[simp] theorem State.setPc_level (s : State) (t : Word) :
    (s.setPc t).level = s.level := rfl
@[simp] theorem State.setPc_x (s : State) (t : Word) :
    (s.setPc t).x = s.x := rfl
@[simp] theorem State.setPc_pc (s : State) (t : Word) :
    (s.setPc t).pc = t := rfl
@[simp] theorem State.setPc_mem (s : State) (t : Word) :
    (s.setPc t).mem = s.mem := rfl
@[simp] theorem State.setPc_ifid (s : State) (t : Word) :
    (s.setPc t).ifid = s.ifid := rfl
@[simp] theorem State.setPc_idex (s : State) (t : Word) :
    (s.setPc t).idex = s.idex := rfl
@[simp] theorem State.setPc_exmem (s : State) (t : Word) :
    (s.setPc t).exmem = s.exmem := rfl
@[simp] theorem State.setPc_memwb (s : State) (t : Word) :
    (s.setPc t).memwb = s.memwb := rfl
@[simp] theorem State.setPc_halt (s : State) (t : Word) :
    (s.setPc t).halt = s.halt := rfl
@[simp] theorem State.setPc_cycle (s : State) (t : Word) :
    (s.setPc t).cycle = s.cycle := rfl
@[simp] theorem State.setPc_readReg (s : State) (t : Word) (r : RegIx) :
    (s.setPc t).readReg r = s.readReg r := rfl

/-! ### storeWord -/

@[simp] theorem State.storeWord_params (s : State) (addr v : Word) :
    (s.storeWord addr v).params = s.params := rfl
@[simp] theorem State.storeWord_level (s : State) (addr v : Word) :
    (s.storeWord addr v).level = s.level := rfl
@[simp] theorem State.storeWord_x (s : State) (addr v : Word) :
    (s.storeWord addr v).x = s.x := rfl
@[simp] theorem State.storeWord_pc (s : State) (addr v : Word) :
    (s.storeWord addr v).pc = s.pc := rfl
@[simp] theorem State.storeWord_mem (s : State) (addr v : Word) :
    (s.storeWord addr v).mem = writeWord s.mem addr.toNat v := rfl
@[simp] theorem State.storeWord_ifid (s : State) (addr v : Word) :
    (s.storeWord addr v).ifid = s.ifid := rfl
@[simp] theorem State.storeWord_idex (s : State) (addr v : Word) :
    (s.storeWord addr v).idex = s.idex := rfl
@[simp] theorem State.storeWord_exmem (s : State) (addr v : Word) :
    (s.storeWord addr v).exmem = s.exmem := rfl
@[simp] theorem State.storeWord_memwb (s : State) (addr v : Word) :
    (s.storeWord addr v).memwb = s.memwb := rfl
@[simp] theorem State.storeWord_halt (s : State) (addr v : Word) :
    (s.storeWord addr v).halt = s.halt := rfl
@[simp] theorem State.storeWord_cycle (s : State) (addr v : Word) :
    (s.storeWord addr v).cycle = s.cycle := rfl
@[simp] theorem State.storeWord_readReg (s : State) (addr v : Word) (r : RegIx) :
    (s.storeWord addr v).readReg r = s.readReg r := rfl

/-! ### raiseHalt -/

@[simp] theorem State.raiseHalt_params (s : State) (cause : HaltCause) (stage : Stage) (tPc tIr : Word) :
    (s.raiseHalt cause stage tPc tIr).params = s.params := rfl
@[simp] theorem State.raiseHalt_level (s : State) (cause : HaltCause) (stage : Stage) (tPc tIr : Word) :
    (s.raiseHalt cause stage tPc tIr).level = s.level := rfl
@[simp] theorem State.raiseHalt_x (s : State) (cause : HaltCause) (stage : Stage) (tPc tIr : Word) :
    (s.raiseHalt cause stage tPc tIr).x = s.x := rfl
@[simp] theorem State.raiseHalt_pc (s : State) (cause : HaltCause) (stage : Stage) (tPc tIr : Word) :
    (s.raiseHalt cause stage tPc tIr).pc = s.pc := rfl
@[simp] theorem State.raiseHalt_mem (s : State) (cause : HaltCause) (stage : Stage) (tPc tIr : Word) :
    (s.raiseHalt cause stage tPc tIr).mem = s.mem := rfl
@[simp] theorem State.raiseHalt_ifid (s : State) (cause : HaltCause) (stage : Stage) (tPc tIr : Word) :
    (s.raiseHalt cause stage tPc tIr).ifid = s.ifid := rfl
@[simp] theorem State.raiseHalt_idex (s : State) (cause : HaltCause) (stage : Stage) (tPc tIr : Word) :
    (s.raiseHalt cause stage tPc tIr).idex = s.idex := rfl
@[simp] theorem State.raiseHalt_exmem (s : State) (cause : HaltCause) (stage : Stage) (tPc tIr : Word) :
    (s.raiseHalt cause stage tPc tIr).exmem = s.exmem := rfl
@[simp] theorem State.raiseHalt_memwb (s : State) (cause : HaltCause) (stage : Stage) (tPc tIr : Word) :
    (s.raiseHalt cause stage tPc tIr).memwb = s.memwb := rfl
@[simp] theorem State.raiseHalt_halt (s : State) (cause : HaltCause) (stage : Stage) (tPc tIr : Word) :
    (s.raiseHalt cause stage tPc tIr).halt = some (s.haltRecord cause stage tPc tIr) := rfl
@[simp] theorem State.raiseHalt_cycle (s : State) (cause : HaltCause) (stage : Stage) (tPc tIr : Word) :
    (s.raiseHalt cause stage tPc tIr).cycle = s.cycle := rfl
@[simp] theorem State.raiseHalt_readReg (s : State) (cause : HaltCause) (stage : Stage) (tPc tIr : Word) (r : RegIx) :
    (s.raiseHalt cause stage tPc tIr).readReg r = s.readReg r := rfl

/-! ### commit -/

@[simp] theorem State.commit_params (s : State) (ifid : Option IfId) (idex : Option IdEx) (exmem : Option ExMem) (memwb : Option MemWb) :
    (s.commit ifid idex exmem memwb).params = s.params := rfl
@[simp] theorem State.commit_level (s : State) (ifid : Option IfId) (idex : Option IdEx) (exmem : Option ExMem) (memwb : Option MemWb) :
    (s.commit ifid idex exmem memwb).level = s.level := rfl
@[simp] theorem State.commit_x (s : State) (ifid : Option IfId) (idex : Option IdEx) (exmem : Option ExMem) (memwb : Option MemWb) :
    (s.commit ifid idex exmem memwb).x = s.x := rfl
@[simp] theorem State.commit_pc (s : State) (ifid : Option IfId) (idex : Option IdEx) (exmem : Option ExMem) (memwb : Option MemWb) :
    (s.commit ifid idex exmem memwb).pc = s.pc := rfl
@[simp] theorem State.commit_mem (s : State) (ifid : Option IfId) (idex : Option IdEx) (exmem : Option ExMem) (memwb : Option MemWb) :
    (s.commit ifid idex exmem memwb).mem = s.mem := rfl
@[simp] theorem State.commit_ifid (s : State) (ifid : Option IfId) (idex : Option IdEx) (exmem : Option ExMem) (memwb : Option MemWb) :
    (s.commit ifid idex exmem memwb).ifid = ifid := rfl
@[simp] theorem State.commit_idex (s : State) (ifid : Option IfId) (idex : Option IdEx) (exmem : Option ExMem) (memwb : Option MemWb) :
    (s.commit ifid idex exmem memwb).idex = idex := rfl
@[simp] theorem State.commit_exmem (s : State) (ifid : Option IfId) (idex : Option IdEx) (exmem : Option ExMem) (memwb : Option MemWb) :
    (s.commit ifid idex exmem memwb).exmem = exmem := rfl
@[simp] theorem State.commit_memwb (s : State) (ifid : Option IfId) (idex : Option IdEx) (exmem : Option ExMem) (memwb : Option MemWb) :
    (s.commit ifid idex exmem memwb).memwb = memwb := rfl
@[simp] theorem State.commit_halt (s : State) (ifid : Option IfId) (idex : Option IdEx) (exmem : Option ExMem) (memwb : Option MemWb) :
    (s.commit ifid idex exmem memwb).halt = s.halt := rfl
@[simp] theorem State.commit_cycle (s : State) (ifid : Option IfId) (idex : Option IdEx) (exmem : Option ExMem) (memwb : Option MemWb) :
    (s.commit ifid idex exmem memwb).cycle = s.cycle + 1 := rfl
@[simp] theorem State.commit_readReg (s : State) (ifid : Option IfId) (idex : Option IdEx) (exmem : Option ExMem) (memwb : Option MemWb) (r : RegIx) :
    (s.commit ifid idex exmem memwb).readReg r = s.readReg r := rfl

/-! ### stageWb -/

@[simp] theorem stageWb_params (s : State) : (stageWb s).params = s.params := by
  unfold stageWb; split <;> simp
@[simp] theorem stageWb_level (s : State) : (stageWb s).level = s.level := by
  unfold stageWb; split <;> simp
@[simp] theorem stageWb_pc (s : State) : (stageWb s).pc = s.pc := by
  unfold stageWb; split <;> simp
@[simp] theorem stageWb_mem (s : State) : (stageWb s).mem = s.mem := by
  unfold stageWb; split <;> simp
@[simp] theorem stageWb_ifid (s : State) : (stageWb s).ifid = s.ifid := by
  unfold stageWb; split <;> simp
@[simp] theorem stageWb_idex (s : State) : (stageWb s).idex = s.idex := by
  unfold stageWb; split <;> simp
@[simp] theorem stageWb_exmem (s : State) : (stageWb s).exmem = s.exmem := by
  unfold stageWb; split <;> simp
@[simp] theorem stageWb_memwb (s : State) : (stageWb s).memwb = s.memwb := by
  unfold stageWb; split <;> simp
@[simp] theorem stageWb_halt (s : State) : (stageWb s).halt = s.halt := by
  unfold stageWb; split <;> simp
@[simp] theorem stageWb_cycle (s : State) : (stageWb s).cycle = s.cycle := by
  unfold stageWb; split <;> simp

/-! ### Reset -/

@[simp] theorem State.resetWith_params (p : Params) : (State.resetWith p).params = p := rfl
@[simp] theorem State.resetWith_level (p : Params) : (State.resetWith p).level = .cycle := rfl
@[simp] theorem State.resetWith_x (p : Params) : (State.resetWith p).x = resetRegs p := rfl
@[simp] theorem State.resetWith_pc (p : Params) : (State.resetWith p).pc = p.resetPc := rfl
@[simp] theorem State.resetWith_mem (p : Params) : (State.resetWith p).mem = p.memInit := rfl
@[simp] theorem State.resetWith_ifid (p : Params) : (State.resetWith p).ifid = none := rfl
@[simp] theorem State.resetWith_idex (p : Params) : (State.resetWith p).idex = none := rfl
@[simp] theorem State.resetWith_exmem (p : Params) : (State.resetWith p).exmem = none := rfl
@[simp] theorem State.resetWith_memwb (p : Params) : (State.resetWith p).memwb = none := rfl
@[simp] theorem State.resetWith_halt (p : Params) : (State.resetWith p).halt = none := rfl
@[simp] theorem State.resetWith_cycle (p : Params) : (State.resetWith p).cycle = 0 := rfl

end Sys2Proof.Machine
end

