-- ==== Sys2Proof/Laws/Ops.lean ====
section
/-! SUPPORT. For each shared operation one lemma that says everything it can do. -/

namespace Sys2Proof.Machine

theorem State.accessOk_iff (s : State) (addr : Word) :
    s.accessOk addr = true ↔ addr.toNat % 4 = 0 ∧ addr.toNat + 4 ≤ s.params.memSize := by
  simp [State.accessOk]

theorem State.pcAligned_iff (s : State) : s.pcAligned = true ↔ s.pc.toNat % 4 = 0 := by simp [State.pcAligned]

theorem State.inFetchRange_iff (s : State) : s.inFetchRange = true ↔ s.pc.toNat + 4 ≤ s.params.fetchEnd := by
  simp [State.inFetchRange]

/-- The access check depends on the parameters alone. -/
theorem State.accessOk_congr {s t : State} (h : t.params = s.params) (addr : Word) :
    t.accessOk addr = s.accessOk addr := by simp [State.accessOk, h]

/-- Every next state that the completion of one instruction can answer with. -/
theorem State.complete_next {s t : State} {i : Instr} {o : ExOut} {store : Word} (h : s.complete i o store = .next t) :
    (o.memop = .none ∧ t = (s.writeReg (destOf (.instr i)) o.result).setPc (o.redirect.getD s.npc)) ∨
    (o.memop = .load ∧ s.accessOk o.result = true ∧
      t = (s.writeReg (destOf (.instr i)) (s.loadWord o.result)).setPc (o.redirect.getD s.npc)) ∨
    (o.memop = .store ∧ s.accessOk o.result = true ∧
      t = (s.storeWord o.result store).setPc (o.redirect.getD s.npc)) := by
  unfold State.complete at h
  split at h
  · next hm => cases h; exact .inl ⟨hm, rfl⟩
  · next hm =>
    split at h
    · next hok => cases h; exact .inr (.inl ⟨hm, hok, rfl⟩)
    · cases h
  · next hm =>
    split at h
    · next hok => cases h; exact .inr (.inr ⟨hm, hok, rfl⟩)
    · cases h

/-- The completion of one instruction never refuses. -/
theorem State.complete_ne_refused (s : State) (i : Instr) (o : ExOut) (store : Word) (r : Refusal) :
    s.complete i o store ≠ .refused r := by
  unfold State.complete
  split
  · exact fun h => nomatch h
  · split <;> exact fun h => nomatch h
  · split <;> exact fun h => nomatch h

/-- Every instruction's meaning is a completion of its row: the one lemma that opens `exec`. -/
theorem exec_eq_complete (i : Instr) (s : State) : ∃ o store, exec i s = s.complete i o store := by
  cases i <;>
    simp only [exec, execSll, execSrl, execSra, execJr, execAdd, execSub, execAnd, execOr, execNor, execSlt, execBeq,
      execBne, execAddi, execSlti, execAndi, execOri, execLw, execSw, execJ, execJal] <;>
    exact ⟨_, _, rfl⟩

/-- What no instruction changes. -/
theorem State.complete_frame {s t : State} {i : Instr} {o : ExOut} {store : Word}
    (h : s.complete i o store = .next t) :
    t.params = s.params ∧ t.level = s.level ∧ t.ifid = s.ifid ∧ t.idex = s.idex ∧ t.exmem = s.exmem ∧
      t.memwb = s.memwb ∧ t.halt = s.halt ∧ t.cycle = s.cycle := by
  rcases State.complete_next h with ⟨-, rfl⟩ | ⟨-, -, rfl⟩ | ⟨-, -, rfl⟩ <;> simp

end Sys2Proof.Machine
end

