-- ==== Sys2Proof/Laws/PerInstr.lean ====
section
/-!
SUPPORT. The families of statements about every instruction, one lemma per constructor. `RowMatch`: the encoding of an
instruction lies in its row of spec/opcode_table.json, whatever its operands.
-/

namespace Sys2Proof

/-- Under the R-format's mask the funct field is left. -/
theorem encodeR_mask (rs rt rd : RegIx) (shamt : Shamt) (funct : BitVec 6) :
    encodeR rs rt rd shamt funct &&& 0xFC00003F = placed 6 funct 0 := by
  apply BitVec.eq_of_getLsbD_eq
  intro k hk
  interval_cases k <;> simp [encodeR, placed]

/-- Under the I-format's mask the opcode is left. -/
theorem encodeI_mask (opcode : BitVec 6) (rs rt : RegIx) (imm : Imm16) :
    encodeI opcode rs rt imm &&& 0xFC000000 = placed 6 opcode 26 := by
  apply BitVec.eq_of_getLsbD_eq
  intro k hk
  interval_cases k <;> simp [encodeI, placed]

/-- Under the J-format's mask the opcode is left. -/
theorem encodeJ_mask (opcode : BitVec 6) (target : Target26) :
    encodeJ opcode target &&& 0xFC000000 = placed 6 opcode 26 := by
  apply BitVec.eq_of_getLsbD_eq
  intro k hk
  interval_cases k <;> simp [encodeJ, placed]

end Sys2Proof

namespace Sys2Proof.Laws

/-- The encoding of `i` lies in `i`'s row of the opcode table. -/
def RowMatch.Statement (i : Instr) : Prop := i.row.holds (encode i) = true

theorem RowMatch.sll (rt : RegIx) (rd : RegIx) (shamt : Shamt) : RowMatch.Statement (.sll rt rd shamt) :=
  decide_eq_true (encodeR_mask ..)

theorem RowMatch.srl (rt : RegIx) (rd : RegIx) (shamt : Shamt) : RowMatch.Statement (.srl rt rd shamt) :=
  decide_eq_true (encodeR_mask ..)

theorem RowMatch.sra (rt : RegIx) (rd : RegIx) (shamt : Shamt) : RowMatch.Statement (.sra rt rd shamt) :=
  decide_eq_true (encodeR_mask ..)

theorem RowMatch.jr (rs : RegIx) : RowMatch.Statement (.jr rs) :=
  decide_eq_true (encodeR_mask ..)

theorem RowMatch.add (rs : RegIx) (rt : RegIx) (rd : RegIx) : RowMatch.Statement (.add rs rt rd) :=
  decide_eq_true (encodeR_mask ..)

theorem RowMatch.sub (rs : RegIx) (rt : RegIx) (rd : RegIx) : RowMatch.Statement (.sub rs rt rd) :=
  decide_eq_true (encodeR_mask ..)

theorem RowMatch.and (rs : RegIx) (rt : RegIx) (rd : RegIx) : RowMatch.Statement (.and rs rt rd) :=
  decide_eq_true (encodeR_mask ..)

theorem RowMatch.or (rs : RegIx) (rt : RegIx) (rd : RegIx) : RowMatch.Statement (.or rs rt rd) :=
  decide_eq_true (encodeR_mask ..)

theorem RowMatch.nor (rs : RegIx) (rt : RegIx) (rd : RegIx) : RowMatch.Statement (.nor rs rt rd) :=
  decide_eq_true (encodeR_mask ..)

theorem RowMatch.slt (rs : RegIx) (rt : RegIx) (rd : RegIx) : RowMatch.Statement (.slt rs rt rd) :=
  decide_eq_true (encodeR_mask ..)

theorem RowMatch.beq (rs : RegIx) (rt : RegIx) (imm : Imm16) : RowMatch.Statement (.beq rs rt imm) :=
  decide_eq_true (encodeI_mask ..)

theorem RowMatch.bne (rs : RegIx) (rt : RegIx) (imm : Imm16) : RowMatch.Statement (.bne rs rt imm) :=
  decide_eq_true (encodeI_mask ..)

theorem RowMatch.addi (rs : RegIx) (rt : RegIx) (imm : Imm16) : RowMatch.Statement (.addi rs rt imm) :=
  decide_eq_true (encodeI_mask ..)

theorem RowMatch.slti (rs : RegIx) (rt : RegIx) (imm : Imm16) : RowMatch.Statement (.slti rs rt imm) :=
  decide_eq_true (encodeI_mask ..)

theorem RowMatch.andi (rs : RegIx) (rt : RegIx) (imm : Imm16) : RowMatch.Statement (.andi rs rt imm) :=
  decide_eq_true (encodeI_mask ..)

theorem RowMatch.ori (rs : RegIx) (rt : RegIx) (imm : Imm16) : RowMatch.Statement (.ori rs rt imm) :=
  decide_eq_true (encodeI_mask ..)

theorem RowMatch.lw (rs : RegIx) (rt : RegIx) (imm : Imm16) : RowMatch.Statement (.lw rs rt imm) :=
  decide_eq_true (encodeI_mask ..)

theorem RowMatch.sw (rs : RegIx) (rt : RegIx) (imm : Imm16) : RowMatch.Statement (.sw rs rt imm) :=
  decide_eq_true (encodeI_mask ..)

theorem RowMatch.j (target : Target26) : RowMatch.Statement (.j target) :=
  decide_eq_true (encodeJ_mask ..)

theorem RowMatch.jal (target : Target26) : RowMatch.Statement (.jal target) :=
  decide_eq_true (encodeJ_mask ..)

end Sys2Proof.Laws
end

