-- ==== Sys2Proof/Laws/Step.lean ====
section
/-! SUPPORT. What each stage, a tick and a step can do, said once. -/

namespace Sys2Proof.Machine

/-! ### The stages -/

/-- Write-back changes at most the register its latch names. -/
theorem stageWb_readReg (s : State) (r : RegIx) :
    (stageWb s).readReg r =
      match s.memwb with
      | some l => if r = l.dest then (if l.dest = 0#5 then 0#32 else l.value) else s.readReg r
      | none => s.readReg r := by
  unfold stageWb
  split <;> simp_all [State.readReg_writeReg]

@[simp] theorem stageWb_slot_zero (s : State) : (stageWb s).x[0] = s.x[0] := by
  unfold stageWb; split <;> simp

/-- Everything Memory access can do when it does not halt. -/
theorem stageMem_go {s t : State} {l : Option MemWb} (h : stageMem s = .go t l) :
    (s.exmem = none ∧ t = s ∧ l = none) ∨
    ∃ m, s.exmem = some m ∧
      ((m.memop = .none ∧ t = s ∧ l = some ⟨m.result, m.dest, m.tPc, m.tIr⟩) ∨
       (m.memop = .load ∧ s.accessOk m.result = true ∧ t = s ∧
          l = some ⟨s.loadWord m.result, m.dest, m.tPc, m.tIr⟩) ∨
       (m.memop = .store ∧ s.accessOk m.result = true ∧ t = s.storeWord m.result m.store ∧
          l = some ⟨m.result, 0#5, m.tPc, m.tIr⟩)) := by
  unfold stageMem at h
  split at h
  · next he => cases h; exact .inl ⟨he, rfl, rfl⟩
  · next m he =>
    refine .inr ⟨m, he, ?_⟩
    split at h
    · next hm => cases h; exact .inl ⟨hm, rfl, rfl⟩
    · next hm =>
      split at h
      · next hok => cases h; exact .inr (.inl ⟨hm, hok, rfl, rfl⟩)
      · cases h
    · next hm =>
      split at h
      · next hok => cases h; exact .inr (.inr ⟨hm, hok, rfl, rfl⟩)
      · cases h

/-- Memory access halts only on a load or store at a bad address. -/
theorem stageMem_halted {s h : State} (e : stageMem s = .halted h) :
    ∃ m, s.exmem = some m ∧ m.memop ≠ .none ∧ s.accessOk m.result = false ∧
      h = s.raiseHalt .memAccess .MEM m.tPc m.tIr := by
  unfold stageMem at e
  split at e
  · cases e
  · next m he =>
    refine ⟨m, he, ?_⟩
    split at e
    · cases e
    · next hm =>
      split at e
      · cases e
      · next hok => cases e; simp [hm, hok]
    · next hm =>
      split at e
      · cases e
      · next hok => cases e; simp [hm, hok]

/-- Everything Execute can do when it does not halt. -/
theorem stageEx_go {s t : State} {e : Option ExMem} {red : Bool} (h : stageEx s = .go t (e, red)) :
    (s.idex = none ∧ t = s ∧ e = none ∧ red = false) ∨
    ∃ d i, s.idex = some d ∧ d.op = .instr i ∧ e = some (d.toExMem (executeInstr i d)) ∧
      ((∃ a, (executeInstr i d).redirect = some a ∧ t = s.setPc a ∧ red = true) ∨
       ((executeInstr i d).redirect = none ∧ t = s ∧ red = false)) := by
  unfold stageEx at h
  split at h
  · next hd => cases h; exact .inl ⟨hd, rfl, rfl, rfl⟩
  · next d hd =>
    split at h
    · cases h
    · next i hi =>
      refine .inr ⟨d, i, hd, hi, ?_⟩
      dsimp only at h
      split at h
      · next a ha => cases h; exact ⟨rfl, .inl ⟨a, ha, rfl, rfl⟩⟩
      · next ha => cases h; exact ⟨rfl, .inr ⟨ha, rfl, rfl⟩⟩

/-- Execute halts only on an unsupported encoding. -/
theorem stageEx_halted {s h : State} (e : stageEx s = .halted h) :
    ∃ d w, s.idex = some d ∧ d.op = .illegal w ∧ h = s.raiseHalt .unsupported .EX d.tPc d.tIr := by
  unfold stageEx at e
  split at e
  · cases e
  · next d hd =>
    split at e
    · next w hw => cases e; exact ⟨d, w, hd, hw, rfl⟩
    · dsimp only at e
      split at e <;> cases e

/-- Everything Fetch can do when it does not halt. -/
theorem stageIf_go {s t : State} {red hold : Bool} {f : Option IfId} (h : stageIf s red hold = .go t f) :
    (red = true ∧ t = s ∧ f = none) ∨
    (red = false ∧ hold = true ∧ t = s ∧ f = s.ifid) ∨
    (red = false ∧ hold = false ∧ s.pcAligned = true ∧ s.inFetchRange = false ∧ t = s ∧ f = none) ∨
    (red = false ∧ hold = false ∧ s.pcAligned = true ∧ s.inFetchRange = true ∧ t = s.setPc s.npc ∧
      f = some ⟨s.loadWord s.pc, s.npc, s.pc, s.loadWord s.pc⟩) := by
  unfold stageIf at h
  cases red <;> cases hold <;> cases ha : s.pcAligned <;> cases hr : s.inFetchRange <;>
    simp only [ha, hr, if_true, if_false, Bool.not_true, Bool.not_false, Bool.false_eq_true] at h <;> cases h <;> simp [*]

/-- Fetch halts only where it would fetch from a misaligned pc. -/
theorem stageIf_halted {s h : State} {red hold : Bool} (e : stageIf s red hold = .halted h) :
    red = false ∧ hold = false ∧ s.pcAligned = false ∧ h = s.raiseHalt .fetchMisaligned .IF s.pc 0#32 := by
  unfold stageIf at e
  cases red <;> cases hold <;> cases ha : s.pcAligned <;> cases hr : s.inFetchRange <;>
    simp_all

/-! ### The tick -/

/-- Everything a tick of a running core can do when no stage halts. -/
theorem tick_next {s : State} (hs : s.halt = none) (h : (tick s).halt = none) :
    ∃ s2 l s3 e red s4 f,
      stageMem (stageWb s) = .go s2 l ∧ stageEx s2 = .go s3 (e, red) ∧
      stageIf s3 red (stageId s3 red).2 = .go s4 f ∧ tick s = s4.commit f (stageId s3 red).1 e l := by
  unfold tick at h ⊢
  rw [hs] at h ⊢
  simp only [Option.isSome_none, Bool.false_eq_true, if_false] at h ⊢
  split at h
  · next hh hm => obtain ⟨m, -, -, -, rfl⟩ := stageMem_halted hm; simp at h
  · next s2 l hm =>
    split at h
    · next hh he => obtain ⟨d, w, -, -, rfl⟩ := stageEx_halted he; simp at h
    · next s3 e red he =>
      split at h
      · next hh hf => obtain ⟨-, -, -, rfl⟩ := stageIf_halted hf; simp at h
      · next s4 f hf =>
        refine ⟨s2, l, s3, e, red, s4, f, hm, he, hf, ?_⟩
        rfl

/-- A step of the cycle-level machine that completes is a tick that does not halt. -/
theorem step_cycle_next {s t : State} (hs : s.ticking = true) (h : step s = .next t) :
    t = tick s ∧ (tick s).halt = none := by
  simp only [State.ticking, State.running, Bool.and_eq_true, decide_eq_true_eq, Option.isNone_iff_eq_none] at hs
  obtain ⟨⟨hp, hh⟩, hl⟩ := hs
  simp only [step, hp, hh, hl, Bool.not_true, Bool.false_eq_true, if_false, stepCycle, haltOutcome] at h
  split at h
  · cases h
  · next ht => cases h; exact ⟨rfl, ht⟩

/-- Everything one completed tick of the cycle-level machine can do: the one lemma that opens it. -/
theorem step_cycle_cases {s t : State} (hs : s.ticking = true) (h : step s = .next t) :
    ∃ s2 l s3 e red s4 f,
      stageMem (stageWb s) = .go s2 l ∧ stageEx s2 = .go s3 (e, red) ∧
      stageIf s3 red (stageId s3 red).2 = .go s4 f ∧ t = s4.commit f (stageId s3 red).1 e l := by
  obtain ⟨rfl, ht⟩ := step_cycle_next hs h
  refine tick_next ?_ ht
  simp only [State.ticking, State.running, Bool.and_eq_true, Option.isNone_iff_eq_none] at hs
  exact hs.1.2

/-- A step of the sequential machine is `stepSequential`. -/
theorem step_sequencing {s : State} (hs : s.sequencing = true) : step s = stepSequential s := by
  simp only [State.sequencing, State.running, Bool.and_eq_true, decide_eq_true_eq, Option.isNone_iff_eq_none] at hs
  obtain ⟨⟨hp, hh⟩, hl⟩ := hs
  simp [step, hp, hh, hl]

/-- Everything a completed step of the sequential machine can do. -/
theorem stepSequential_next {s t : State} (h : stepSequential s = .next t) :
    s.pcAligned = true ∧
      ((s.inFetchRange = false ∧ t = s) ∨
       (s.inFetchRange = true ∧ ∃ i, decode (s.loadWord s.pc) = .instr i ∧ exec i s = .next t)) := by
  unfold stepSequential at h
  cases ha : s.pcAligned
  · simp [ha] at h
  · refine ⟨rfl, ?_⟩
    cases hr : s.inFetchRange
    · simp only [ha, hr, Bool.not_true, Bool.not_false, Bool.false_eq_true, if_false, if_true] at h
      cases h; exact .inl ⟨rfl, rfl⟩
    · simp only [ha, hr, Bool.not_true, Bool.false_eq_true, if_false] at h
      split at h
      · next i hi => exact .inr ⟨rfl, i, hi, h⟩
      · cases h

/-- A step that completes starts in a running state, and is a step of the machine of that state's level. -/
theorem step_next_running {s t : State} (h : step s = .next t) : s.ticking = true ∨ s.sequencing = true := by
  unfold step at h
  split at h
  · cases h
  · next hp =>
    split at h
    · cases h
    · next hh =>
      cases hl : s.level
      · left; simp_all [State.ticking, State.running]
      · right; simp_all [State.sequencing, State.running]

end Sys2Proof.Machine
end

