-- ==== Sys2Proof/Tests/Slice0.lean ====
section
/-!
SUPPORT. Tests and witnesses. Expected values are the spec's own: 95_test_vectors.md (V1 to V9) and the corner cases of
the instruction rules. The witnesses show, for each statement with hypotheses, a concrete state that meets them all.
-/

namespace Sys2Proof.Tests

open Sys2Proof.Machine

/-! ### Small states -/

/-- 64 bytes of memory holding the words at 0, `FETCH_END` at the end, registers zero. -/
def small (ws : List Word) : Params where
  memSize := 64
  memInit := writeWords [] 0 ws
  resetPc := 0
  gprInit := Vector.replicate 31 0
  fetchEnd := 64

/-- An empty core with `x[8] = a`, `x[9] = b`. -/
def ab (a b : Word) : State := ((State.resetWith (small [])).writeReg 8 a).writeReg 9 b

/-- The state that an outcome answers with, or the one given. -/
def after (s : State) : Result → State
  | .next t => t
  | _ => s

def isNext : Result → Bool
  | .next _ => true
  | _ => false

theorem exists_next {r : Result} (h : isNext r = true) : ∃ t, r = .next t := by
  cases r with
  | next t => exact ⟨t, rfl⟩
  | fault f => cases h
  | refused r => cases h

/-- Register `r` after one instruction by itself. -/
def regAfter (i : Instr) (s : State) (r : RegIx) : Word := (after s (exec i s)).readReg r

/-- The pc after one instruction by itself. -/
def pcAfter (i : Instr) (s : State) : Word := (after s (exec i s)).pc

/-! ### Well-formedness: each check refuses an ill-formed term -/

theorem test_wf_small : (small []).wellFormed = true := by decide
theorem test_wf_standard : Params.standard.wellFormed = true := by decide
theorem test_wf_memSize : ({ small [] with memSize := 66 } : Params).memSizeOk = false := by decide
theorem test_wf_memSize_zero : ({ small [] with memSize := 0 } : Params).memSizeOk = false := by decide
theorem test_wf_memSize_big : ({ small [] with memSize := 4294967300 } : Params).memSizeOk = false := by decide
theorem test_wf_memInit_order : ({ small [] with memInit := [(4, 1), (3, 1)] } : Params).memInitOk = false := by decide
theorem test_wf_memInit_zero : ({ small [] with memInit := [(4, 0)] } : Params).memInitOk = false := by decide
theorem test_wf_memInit_extent : ({ small [] with memInit := [(64, 1)] } : Params).memInitOk = false := by decide
theorem test_wf_resetPc : ({ small [] with resetPc := 2 } : Params).resetPcOk = false := by decide
theorem test_wf_fetchEnd : ({ small [] with fetchEnd := 6 } : Params).fetchEndOk = false := by decide
theorem test_wf_fetchEnd_big : ({ small [] with fetchEnd := 68 } : Params).fetchEndOk = false := by decide

/-! ### Decoding: words written out from 30_encoding.md R91 to R96 -/

theorem test_decode_sll : decode 0b00000000000010010101000100000000 = .instr (.sll 9 10 4) := by decide
theorem test_decode_srl : decode 0b00000000000010010101000100000010 = .instr (.srl 9 10 4) := by decide
theorem test_decode_sra : decode 0b00000000000010010101000100000011 = .instr (.sra 9 10 4) := by decide
theorem test_decode_jr : decode 0b00000011111000000000000000001000 = .instr (.jr 31) := by decide
theorem test_decode_add : decode 0b00000001000010010101000000100000 = .instr (.add 8 9 10) := by decide
theorem test_decode_sub : decode 0b00000001000010010101000000100010 = .instr (.sub 8 9 10) := by decide
theorem test_decode_and : decode 0b00000001000010010101000000100100 = .instr (.and 8 9 10) := by decide
theorem test_decode_or : decode 0b00000001000010010101000000100101 = .instr (.or 8 9 10) := by decide
theorem test_decode_nor : decode 0b00000001000010010101000000100111 = .instr (.nor 8 9 10) := by decide
theorem test_decode_slt : decode 0b00000001000010010101000000101010 = .instr (.slt 8 9 10) := by decide
theorem test_decode_beq : decode 0b00010001000010011111111111111110 = .instr (.beq 8 9 0xFFFE) := by decide
theorem test_decode_bne : decode 0b00010101000010010000000000000011 = .instr (.bne 8 9 3) := by decide
theorem test_decode_addi : decode 0b00100001000010011111111111111111 = .instr (.addi 8 9 0xFFFF) := by decide
theorem test_decode_slti : decode 0b00101001000010011111111111111011 = .instr (.slti 8 9 0xFFFB) := by decide
theorem test_decode_andi : decode 0b00110001000010011111111100000000 = .instr (.andi 8 9 0xFF00) := by decide
theorem test_decode_ori : decode 0b00110101000010011000000000000000 = .instr (.ori 8 9 0x8000) := by decide
theorem test_decode_lw : decode 0b10001101000010011111111111111100 = .instr (.lw 8 9 0xFFFC) := by decide
theorem test_decode_sw : decode 0b10101101000010010000000000001000 = .instr (.sw 8 9 8) := by decide
theorem test_decode_j : decode 0b00001000000000000000000001000000 = .instr (.j 0x40) := by decide
theorem test_decode_jal : decode 0b00001111111111111111111111111111 = .instr (.jal 0x3FFFFFF) := by decide
/-- V1: a `shamt` field of 31 is ignored by `add`. -/
theorem test_decode_ignored : decode 0x010957E0 = .instr (.add 8 9 10) := by decide
/-- V1: unsupported words. -/
theorem test_decode_illegal : [0x0000000C, 0x00000021, 0x00000026, 0x0000002B, 0x00000004, 0x3C080001, 0x24080001,
    0x80080000, 0x04000000, 0xFFFFFFFF].all (fun w => decide (decode w = .illegal w)) = true := by decide
theorem test_decode_truncated : decodeBytes [0x20, 0x08, 0x00] = .error .truncated := by decide
theorem test_decode_bytes : decodeBytes [0x20, 0x08, 0x00, 0x05, 0xFF] = .ok (.addi 0 8 5, [0xFF]) := by decide
theorem test_table_word : decodeTableWord 32 0x20080005 = some (.addi 0 8 5) := by decide
theorem test_format : formatOf 0x01095020 = some .r ∧ formatOf 0x0C000008 = some .j ∧ formatOf 0xAD090008 = some .i ∧
    formatOf 0x04000000 = none := by decide
/-- 10_state.md R33. -/
theorem test_names : regName 8 = "$t0" ∧ regName 31 = "$ra" := by decide

/-! ### The memory primitives (V9) and the hard-wired register -/

theorem test_writeWord : writeWord [] 0x10 0x0000000C = [(0x13, 0x0C)] := by decide
theorem test_readWord : readWord [(4, 0xDE), (5, 0xAD), (6, 0xBE), (7, 0xEF)] 4 = 0xDEADBEEF := by decide
theorem test_write_removes : writeWord [(0x13, 0x0C)] 0x10 0 = [] := by decide
theorem reset_mem_wf : State.reset.mem.wf = true := rfl

/-! ### The instructions (V2 to V6), each on one small state -/

theorem test_add_wraps : regAfter (.add 8 9 10) (ab 0x7FFFFFFF 1) 10 = 0x80000000 := by decide
theorem test_add_same : regAfter (.add 8 8 8) (ab 0x80000000 1) 8 = 0 := by decide
theorem test_sub : regAfter (.sub 8 9 10) (ab 5 7) 10 = 0xFFFFFFFE := by decide
theorem test_and : regAfter (.and 8 9 10) (ab 0xF0F0F0F0 0xFF00FF00) 10 = 0xF000F000 := by decide
theorem test_or : regAfter (.or 8 9 10) (ab 0xF0F0F0F0 0x0F0F0000) 10 = 0xFFFFF0F0 := by decide
theorem test_nor : regAfter (.nor 8 9 10) (ab 0xF0F0F0F0 0x0F0F0000) 10 = 0x00000F0F := by decide
theorem test_slt_negative : regAfter (.slt 8 9 10) (ab 0x80000000 0x7FFFFFFF) 10 = 1 := by decide
theorem test_slt_positive : regAfter (.slt 8 9 10) (ab 0x7FFFFFFF 0x80000000) 10 = 0 := by decide
theorem test_sll : regAfter (.sll 9 10 1) (ab 0xDEADBEEF 0x80000001) 10 = 2 := by decide
theorem test_srl : regAfter (.srl 9 10 31) (ab 0xDEADBEEF 0x80000000) 10 = 1 := by decide
theorem test_sra : regAfter (.sra 9 10 4) (ab 0xDEADBEEF 0x80000000) 10 = 0xF8000000 := by decide
theorem test_addi_negative : regAfter (.addi 8 10 0xFFFF) (ab 0x10 0) 10 = 0x0F := by decide
theorem test_addi_zero_register : regAfter (.addi 8 0 5) (ab 3 4) 0 = 0 := by decide
theorem test_slti_equal : regAfter (.slti 8 10 0x8000) (ab 0xFFFF8000 0) 10 = 0 := by decide
theorem test_slti_less : regAfter (.slti 8 10 0x8000) (ab 0xFFFF7FFF 0) 10 = 1 := by decide
theorem test_andi : regAfter (.andi 8 10 0x8000) (ab 0xFFFFFFFF 0) 10 = 0x00008000 := by decide
theorem test_ori : regAfter (.ori 8 10 0x8000) (ab 0 0) 10 = 0x00008000 := by decide
theorem test_sw_last_word : (after (ab 60 7) (exec (.sw 8 9 0) (ab 60 7))).mem = [(63, 7)] := by decide
theorem test_lw_negative_offset :
    regAfter (.lw 9 10 0xFFFC) { ab 0 0x24 with mem := writeWord [] 0x20 0x11223344 } 10 = 0x11223344 := by decide
theorem test_beq_taken : pcAfter (.beq 8 9 0xFFFE) { ab 5 5 with pc := 0x100 } = 0xFC := by decide
theorem test_beq_wraps : pcAfter (.beq 8 9 1) { ab 5 5 with pc := 0xFFFFFFFC } = 4 := by decide
theorem test_bne_taken : pcAfter (.bne 8 9 3) { ab 5 6 with pc := 0x100 } = 0x110 := by decide
theorem test_bne_untaken : pcAfter (.bne 8 9 3) { ab 5 5 with pc := 0x100 } = 0x104 := by decide
theorem test_j_region : pcAfter (.j 0) { ab 0 0 with pc := 0xEFFFFFFC } = 0xF0000000 := by decide
theorem test_jal_link : regAfter (.jal 8) { ab 0 0 with pc := 4 } 31 = 8 := by decide
theorem test_jal_target : pcAfter (.jal 8) { ab 0 0 with pc := 4 } = 0x20 := by decide
theorem test_jr_misaligned : pcAfter (.jr 8) (ab 6 0) = 6 := by decide

/-! ### One tick on one small state (V7; programs P1, P4, F1, F2, F6, F7 of 95_test_vectors.md) -/

/-- A latch of the instruction `w` at address `a` in IF/ID. -/
def inIfid (a w : Word) : IfId := ⟨w, a + 4, a, w⟩

/-- A latch in ID/EX as Decode makes it on an empty core. -/
def inIdex (a w : Word) : IdEx := (ab 0 0).issue (inIfid a w)

/-- `addi@4` in Execute and `addi@0` in Memory access, `add@8` in Decode: P1 at the start of tick 4. -/
def p1Tick4 : State :=
  { ab 0 0 with
    pc := 0xC
    ifid := some (inIfid 8 0x01095020)
    idex := some (inIdex 4 0x20090007)
    exmem := some ((inIdex 0 0x20080005).toExMem (executeInstr (.addi 0 8 5) (inIdex 0 0x20080005)))
    cycle := 3 }

theorem test_hold_request : p1Tick4.stallRequest = some 2 := by decide
theorem test_hold_keeps : (tick p1Tick4).ifid = p1Tick4.ifid ∧ (tick p1Tick4).idex = none ∧ (tick p1Tick4).pc = 0xC := by
  decide
theorem test_hold_second : (tick p1Tick4).stallRequest = some 1 := by decide
/-- Tick 6 of P1: Write-back writes `$t1`, and Decode reads it in the same tick. -/
theorem test_same_tick_read : ((tick (tick (tick p1Tick4))).idex.map fun d => (d.a, d.b)) = some (5, 7) := by decide

/-- `jal@4` in Execute with `sw@8` in Decode: P4 at the start of tick 4. -/
def p4Tick4 : State :=
  { ab 0 0 with pc := 0xC, ifid := some (inIfid 8 0xAC020040), idex := some (inIdex 4 0x0C000008), cycle := 3 }

theorem test_flush : (tick p4Tick4).pc = 0x20 ∧ (tick p4Tick4).ifid = none ∧ (tick p4Tick4).idex = none := by decide
theorem test_flush_noop : p4Tick4.isNoop .ID = true ∧ p4Tick4.isNoop .IF = true ∧ p4Tick4.isNoop .EX = false := by decide

/-- F7 at the start of tick 4: `lw` at address 2 in Memory access, an unsupported word in Execute. -/
def f7Tick4 : State :=
  { ab 0 0 with
    pc := 8
    idex := some (inIdex 4 0x0000000C)
    exmem := some ((inIdex 0 0x8C090002).toExMem (executeInstr (.lw 0 9 2) (inIdex 0 0x8C090002)))
    cycle := 3 }

theorem test_older_error_wins : (tick f7Tick4).halt = some ⟨⟨.MEM, 4, 0, 0x8C090002⟩, .memAccess⟩ := by decide
theorem test_unsupported_halts :
    (tick { f7Tick4 with exmem := none }).halt = some ⟨⟨.EX, 4, 4, 0x0000000C⟩, .unsupported⟩ := by decide
theorem test_misaligned_fetch_halts :
    (tick { ab 0 0 with pc := 6, cycle := 6 }).halt = some ⟨⟨.IF, 7, 6, 0⟩, .fetchMisaligned⟩ := by decide
/-- V7: an `addi` holds on its own destination field; register 0 and a J-format word never hold. -/
theorem test_false_hazard : p1Tick4.hazard 0x20090002 = true ∧ p1Tick4.hazard 0x00005020 = false ∧
    p1Tick4.hazard 0x08000002 = false := by decide
theorem test_resident : p1Tick4.resident .ID = some (8, 0x01095020) ∧ p1Tick4.resident .WB = none := by decide
theorem test_codes : HaltCause.unsupported.code = 1 ∧ HaltCause.fetchMisaligned.code = 4 := by decide

/-! ### Witnesses of the statements' hypotheses -/

/-- An empty core at the sequential level with the words at 0. -/
def seq (ws : List Word) : State := { State.resetWith (small ws) with level := .sequential }

/-- An empty core at the cycle level with the words at 0. -/
def cyc (ws : List Word) : State := State.resetWith (small ws)

theorem witness_UnusedFieldsIgnored : (0x08#6 ∈ [0x00#6, 0x02#6, 0x03#6, 0x08#6]) ∧
    (inIfid 0 (encodeR 1 2 3 4 0x08)).ir = encodeR 1 2 3 4 0x08 := by decide
theorem witness_ImmediateExtension : (Instr.jr 31).format ≠ .i := by decide
theorem witness_AllZeroWordIsNoop : ({ cyc [] with ifid := some (inIfid 0 0) } : State).ifid = some (inIfid 0 0) ∧
    (inIfid 0 0).ir = 0#32 := by decide
/-- V6 and R200's corner case: offset -2 words, and the farthest label. -/
theorem witness_AssembledTargets_branch : asmBranch 0x100 0xFC = some 0xFFFE ∧ asmBranch 4 0xFFFE0008 = some 0x8000 := by
  decide
theorem witness_AssembledTargets_jump : (0x1FFFFFFC#32).toNat % 4 = 0 ∧
    (0x1FFFFFFC#32).toNat / 268435456 = (0x10000004#32 + 4).toNat / 268435456 := by decide
theorem witness_RegisterFile : (31#5 ≠ 0) ∧ ∃ t, Sys2Proof.core.run 1 (cyc []) = .next t :=
  ⟨by decide, exists_next (by decide)⟩
theorem witness_WordWriteBigEndian : (cyc [0x20080005]).mem.wf = true := by decide
theorem witness_WordReadBigEndian : (cyc [0x20080005]).ticking = true ∧ (cyc [0x20080005]).fetching = true ∧
    ∃ t, step (cyc [0x20080005]) = .next t := ⟨by decide, by decide, exists_next (by decide)⟩
theorem witness_EffectiveAddress : (9#5 ≠ 8#5) ∧ (∃ t, exec (.sw 8 9 0) (ab 60 7) = .next t) ∧
    ∃ t, exec (.lw 8 9 0) (ab 60 7) = .next t := ⟨by decide, exists_next (by decide), exists_next (by decide)⟩
theorem witness_StoreThenLoad : (ab 60 7).mem.wf = true ∧
    (ab 60 7).accessOk (effectiveAddress ((ab 60 7).readReg 8) (signExtended 0)) = true := by decide
/-- The last word is in range, the next one and a misaligned one are not: both clauses of `LoadWord` and `StoreWord`. -/
theorem witness_LoadWord_StoreWord :
    (60#32).toNat % 4 = 0 ∧ (60#32).toNat + 4 ≤ (ab 60 7).params.memSize ∧
    effectiveAddress ((ab 60 7).readReg 8) (signExtended 0) = 60#32 ∧ (ab 60 7).mem.wf = true ∧
    ¬((64#32).toNat % 4 = 0 ∧ (64#32).toNat + 4 ≤ (ab 60 7).params.memSize) ∧
    effectiveAddress ((ab 64 7).readReg 8) (signExtended 0) = 64#32 ∧
    ¬((61#32).toNat % 4 = 0 ∧ (61#32).toNat + 4 ≤ (ab 60 7).params.memSize) := by decide
theorem witness_Branches : (ab 5 5).readReg 8 = (ab 5 5).readReg 9 ∧ (ab 5 6).readReg 8 ≠ (ab 5 6).readReg 9 := by decide
theorem witness_OnlyJumpRegisterMisaligns : (ab 6 0).pc.toNat % 4 = 0 ∧ (∃ t, exec (.jr 8) (ab 6 0) = .next t) ∧
    (pcAfter (.jr 8) (ab 6 0)).toNat % 4 ≠ 0 := ⟨by decide, exists_next (by decide), by decide⟩
theorem witness_StepRunsDecodedInstruction : (seq [0x20080005]).sequencing = true ∧
    (seq [0x20080005]).pc.toNat % 4 = 0 ∧ (seq [0x20080005]).pc.toNat + 4 ≤ (seq [0x20080005]).params.fetchEnd ∧
    decodeBytes [readByte (seq [0x20080005]).mem 0, readByte (seq [0x20080005]).mem 1,
      readByte (seq [0x20080005]).mem 2, readByte (seq [0x20080005]).mem 3] = .ok (.addi 0 8 5, []) := by decide
/-- The clauses of `SequentialStep`: misaligned, the last word before `FETCH_END`, `FETCH_END` itself, an unsupported
word. -/
theorem witness_SequentialStep :
    (seq [0x0000000C]).sequencing = true ∧ ({ seq [] with pc := 6 } : State).pc.toNat % 4 ≠ 0 ∧
    ({ seq [] with pc := 60 } : State).pc.toNat + 4 ≤ (seq []).params.fetchEnd ∧
    (seq []).params.fetchEnd < ({ seq [] with pc := 64 } : State).pc.toNat + 4 ∧
    decode (readWord (seq [0x0000000C]).mem 0) = .illegal 0x0000000C ∧
    decode (readWord (seq []).mem 60) = .instr nop := by decide
theorem witness_WithFetchWord : State.reset.running = true ∧ State.reset.mem.wf = true ∧
    State.reset.pc.toNat % 4 = 0 ∧ State.reset.pc.toNat + 4 ≤ State.reset.params.fetchEnd := by decide

/-- A store in Memory access and a link value in Write-back on an otherwise empty core. -/
def storing : State :=
  { ab 0 0 with
    exmem := some ⟨4, 0, 7, 0, .store, 0, encode (.sw 0 9 0)⟩
    memwb := some ⟨8, 31, 0, 0⟩ }

theorem witness_WriteBack_MemoryAccess : storing.ticking = true ∧ storing.mem.wf = true ∧
    ∃ t, step storing = .next t := ⟨by decide, by decide, exists_next (by decide)⟩
/-- The other kinds of Memory access: a bubble, no operation, a load. -/
theorem witness_MemoryAccess_kinds :
    (∃ t, step (ab 0 0) = .next t) ∧ (∃ t, step p1Tick4 = .next t) ∧
    ∃ t, step { ab 0 0 with exmem := some ⟨4, 60, 0, 9, .load, 0, encode (.lw 0 9 60)⟩ } = .next t :=
  ⟨exists_next (by decide), exists_next (by decide), exists_next (by decide)⟩
/-- A misaligned address, and the first aligned one out of range. -/
theorem witness_BadAccessHalts : f7Tick4.ticking = true ∧ (f7Tick4.exmem.map fun m => (m.memop, m.result)) =
    some (.load, 2) ∧ (2#32).toNat % 4 ≠ 0 ∧ f7Tick4.params.memSize < (64#32).toNat + 4 ∧
    ¬ f7Tick4.params.memSize < (60#32).toNat + 4 := by decide
theorem witness_UnsupportedEncodingHalts : ({ f7Tick4 with exmem := none } : State).ticking = true ∧
    ({ f7Tick4 with exmem := none } : State).accessPasses = true ∧ (inIdex 4 0x0000000C).op = .illegal 0x0000000C := by
  decide
theorem witness_TakenTransferFlushes : p4Tick4.ticking = true ∧ p4Tick4.accessPasses = true ∧
    p4Tick4.idex = some (inIdex 4 0x0C000008) ∧ redirectOf (inIdex 4 0x0C000008) = some 0x20 ∧
    (0x20#32).toNat % 4 = 0 ∧ (0x20#32).toNat + 4 ≤ p4Tick4.params.fetchEnd := by decide
theorem witness_FlushBeatsHold : p4Tick4.flushing = true ∧ p4Tick4.ticking = true ∧ ∃ t, step p4Tick4 = .next t :=
  ⟨by decide, by decide, exists_next (by decide)⟩
theorem witness_HoldKeepsDecodeAndFetch : p1Tick4.ticking = true ∧ p1Tick4.accessPasses = true ∧
    p1Tick4.executePasses = true ∧ p1Tick4.flushing = false ∧ p1Tick4.ifid = some (inIfid 8 0x01095020) ∧
    p1Tick4.hazard 0x01095020 = true ∧ p1Tick4.idex.isSome = true := by decide

/-- `add@8` in Decode with no producer in flight. -/
def issuing : State := { ab 5 7 with pc := 0xC, ifid := some (inIfid 8 0x01095020) }

theorem witness_IssueLatchesOperands : issuing.ticking = true ∧ issuing.accessPasses = true ∧
    issuing.executePasses = true ∧ issuing.flushing = false ∧ issuing.ifid = some (inIfid 8 0x01095020) ∧
    issuing.hazard 0x01095020 = false ∧ issuing.pc.toNat % 4 = 0 := by decide
/-- The three clauses of `FetchStage`: a misaligned pc, the pc at `FETCH_END`, the last word before it. -/
theorem witness_FetchStage : issuing.holding = false ∧ issuing.flushing = false ∧
    ({ issuing with pc := 6 } : State).holding = false ∧ (6#32).toNat % 4 ≠ 0 ∧ (64#32).toNat % 4 = 0 ∧
    issuing.params.fetchEnd < (64#32).toNat + 4 ∧ (60#32).toNat + 4 ≤ issuing.params.fetchEnd := by decide
/-- The three clauses of `PcAdvance`: a taken transfer, a fetch, a hold. -/
theorem witness_PcAdvance : redirectOf (inIdex 4 0x0C000008) = some 0x20 ∧ issuing.fetching = true ∧
    p1Tick4.flushing = false ∧ p1Tick4.fetching = false ∧ (∃ t, step issuing = .next t) ∧ ∃ t, step p1Tick4 = .next t :=
  ⟨by decide, by decide, by decide, by decide, exists_next (by decide), exists_next (by decide)⟩
theorem witness_ExecuteReadsOnlyItsLatch : p4Tick4.ticking = true ∧ p4Tick4.idex =
    ({ p4Tick4 with ifid := none, memwb := some ⟨8, 31, 0, 0⟩ } : State).idex ∧ (∃ t, step p4Tick4 = .next t) ∧
    ∃ t, step { p4Tick4 with ifid := none, memwb := some ⟨8, 31, 0, 0⟩ } = .next t :=
  ⟨by decide, by decide, exists_next (by decide), exists_next (by decide)⟩
theorem witness_HoldAtMostTwoTicks : p1Tick4.ticking = true ∧ p1Tick4.holding = true ∧ (∃ t, step p1Tick4 = .next t) ∧
    (tick p1Tick4).holding = true ∧ ∃ u, step (tick p1Tick4) = .next u :=
  ⟨by decide, by decide, exists_next (by decide), by decide, exists_next (by decide)⟩
theorem witness_StallRequestCountsDown : p1Tick4.flushing = false ∧ p1Tick4.hazard 0x01095020 = true ∧
    p1Tick4.stallRequest = some 2 ∧ (tick p1Tick4).ticking = true ∧ (tick p1Tick4).stallRequest = some 1 ∧
    ∃ u, step (tick p1Tick4) = .next u := ⟨by decide, by decide, by decide, by decide, by decide, exists_next (by decide)⟩
theorem witness_HaltedCoreStays : (tick f7Tick4).halt = some ⟨⟨.MEM, 4, 0, 0x8C090002⟩, .memAccess⟩ ∧
    (tick f7Tick4).params.wellFormed = true := by decide

/-- The cause of the fault an outcome answers with. -/
def causeOf : Result → Option HaltCause
  | .fault f => some f.cause
  | _ => none

/-- Each of the three causes of `HaltDiagnostic` and `HazardFailureNeverRaised` occurs. -/
theorem witness_HaltDiagnostic : f7Tick4.ticking = true ∧ causeOf (step f7Tick4) = some .memAccess ∧
    causeOf (step { f7Tick4 with exmem := none }) = some .unsupported ∧
    causeOf (step { ab 0 0 with pc := 6 }) = some .fetchMisaligned := by decide
theorem witness_RefusesOnlyBadParameters :
    ({ cyc [] with params := { small [] with memSize := 0 } } : State).params.wellFormed = false := by decide

/-- A Drained core: the pc at `FETCH_END`. -/
def ended : State := { cyc [] with pc := 64 }

theorem witness_DrainedTickOnlyCounts : ended.ticking = true ∧ ended.drained = true := by decide
theorem witness_IdleCoreDrains : ({ storing with pc := 64 } : State).ticking = true ∧
    ({ storing with pc := 64 } : State).accessPasses = true ∧ storing.ifid = none ∧ storing.idex = none ∧
    (64#32).toNat % 4 = 0 ∧ storing.params.fetchEnd < (64#32).toNat + 4 := by decide
theorem witness_ResetEstablishes : (31#5 ≠ 0) ∧ (cyc []).params = small [] := by decide
theorem witness_FirstTicks : (small [0x20080005]).wellFormed = true ∧
    (small [0x20080005]).resetPc.toNat + 4 ≤ (small [0x20080005]).fetchEnd ∧
    (∃ t, Sys2Proof.core.run 2 (cyc [0x20080005]) = .next t) ∧ (∃ t, Sys2Proof.core.run 3 (cyc [0x20080005]) = .next t) ∧
    ∃ t, Sys2Proof.core.run 4 (cyc [0x20080005]) = .next t :=
  ⟨by decide, by decide, exists_next (by decide), exists_next (by decide), exists_next (by decide)⟩
theorem witness_StepKeepsInvariant : (ab 60 7).invariant = true ∧ (∃ t, step (ab 60 7) = .next t) ∧
    ∃ t, step (seq [0xAC080000]) = .next t := ⟨by decide, exists_next (by decide), exists_next (by decide)⟩

/-- `add@0` in Execute, `addi@4` in Decode, on operands 5 and 7, coherent. -/
def running : State :=
  { cyc [0x01095020, 0x20080005] with
    x := (ab 5 7).x
    pc := 8
    ifid := some (inIfid 4 0x20080005)
    idex := some ((ab 5 7).issue (inIfid 0 0x01095020)) }

theorem witness_TickKeepsCoherence : running.ticking = true ∧ running.coherent = true ∧ ∃ t, step running = .next t :=
  ⟨by decide, by decide, exists_next (by decide)⟩
theorem witness_TickPerformsExecutedInstruction : running.idex = some ((ab 5 7).issue (inIfid 0 0x01095020)) ∧
    ((ab 5 7).issue (inIfid 0 0x01095020)).op = .instr (.add 8 9 10) ∧ running.fetchFresh = true := by decide
theorem witness_BubbleTickKeepsView : storing.ticking = true ∧ storing.coherent = true ∧ storing.idex = none ∧
    ∃ t, step storing = .next t := ⟨by decide, by decide, by decide, exists_next (by decide)⟩
/-- An unsupported word in Execute, which is the word memory holds at its address. -/
def unsupported : State :=
  { cyc [0x0000000C] with pc := 4, idex := some ((ab 0 0).issue (inIfid 0 0x0000000C)) }

/-- The unsupported case of `HaltIsTheSequentialFault`, where the sequential step on the view faults alike. -/
theorem witness_HaltIsTheSequentialFault_unsupported : unsupported.ticking = true ∧ unsupported.coherent = true ∧
    unsupported.fetchFresh = true ∧ causeOf (step unsupported) = some .unsupported ∧
    causeOf (step (after unsupported unsupported.archView)) = some .unsupported := by decide
/-- Both clauses of `HaltIsTheSequentialFault`: an access that halts, and a misaligned fetch. -/
theorem witness_HaltIsTheSequentialFault :
    ({ storing with exmem := some ⟨4, 2, 7, 0, .store, 0, 0⟩ } : State).coherent = true ∧
    causeOf (step { storing with exmem := some ⟨4, 2, 7, 0, .store, 0, 0⟩ }) = some .memAccess ∧
    ({ ab 0 0 with pc := 6 } : State).coherent = true ∧ ({ ab 0 0 with pc := 6 } : State).fetchFresh = true ∧
    causeOf (step { ab 0 0 with pc := 6 }) = some .fetchMisaligned := by decide
theorem witness_PipelineRefinesSequentialMachine : running.ticking = true ∧ running.coherent = true ∧
    (∃ t, Sys2Proof.core.run 1 running = .next t) ∧ running.fetchFresh = true ∧ (∃ a, running.archView = .next a) ∧
    ∃ b, (tick running).archView = .next b :=
  ⟨by decide, by decide, exists_next (by decide), by decide, exists_next (by decide), exists_next (by decide)⟩

end Sys2Proof.Tests
end

/-! ### The fields of an encoded word

What the decoder's field functions read from a word that the encoder has put together from fields
(30_encoding.md R91 to R93).
-/

namespace Sys2Proof

/-- A field is read back from where it was placed. -/
theorem extractLsb'_placed_same {n k : Nat} (v : BitVec n) (h : k + n ≤ 32) :
    (placed n v k).extractLsb' k n = v := by
  ext j hj
  have hlt : k + j < 32 := by omega
  simp [placed, hlt, hj]

/-- A field placed apart from the bits that are read contributes nothing to them. -/
theorem extractLsb'_placed_disjoint {n k a m : Nat} (v : BitVec n) (h : k + n ≤ a ∨ a + m ≤ k) :
    (placed n v k).extractLsb' a m = 0#m := by
  ext j hj
  rcases h with hbelow | habove
  · have hout : n ≤ a + j - k := by omega
    simp [placed, hout]
  · have hout : a + j < k := by omega
    simp [placed, hout]

section RFormat

variable (rs rt rd : RegIx) (shamt : Shamt) (funct : BitVec 6)

@[simp] theorem opcodeOf_encodeR : opcodeOf (encodeR rs rt rd shamt funct) = 0 := by
  simp [opcodeOf, encodeR, BitVec.extractLsb'_or, extractLsb'_placed_disjoint]

@[simp] theorem rsOf_encodeR : rsOf (encodeR rs rt rd shamt funct) = rs := by
  simp [rsOf, encodeR, BitVec.extractLsb'_or, extractLsb'_placed_same, extractLsb'_placed_disjoint]

@[simp] theorem rtOf_encodeR : rtOf (encodeR rs rt rd shamt funct) = rt := by
  simp [rtOf, encodeR, BitVec.extractLsb'_or, extractLsb'_placed_same, extractLsb'_placed_disjoint]

@[simp] theorem rdOf_encodeR : rdOf (encodeR rs rt rd shamt funct) = rd := by
  simp [rdOf, encodeR, BitVec.extractLsb'_or, extractLsb'_placed_same, extractLsb'_placed_disjoint]

@[simp] theorem shamtOf_encodeR : shamtOf (encodeR rs rt rd shamt funct) = shamt := by
  simp [shamtOf, encodeR, BitVec.extractLsb'_or, extractLsb'_placed_same, extractLsb'_placed_disjoint]

@[simp] theorem functOf_encodeR : functOf (encodeR rs rt rd shamt funct) = funct := by
  simp [functOf, encodeR, BitVec.extractLsb'_or, extractLsb'_placed_same, extractLsb'_placed_disjoint]

end RFormat

section IFormat

variable (opcode : BitVec 6) (rs rt : RegIx) (imm : Imm16)

@[simp] theorem opcodeOf_encodeI : opcodeOf (encodeI opcode rs rt imm) = opcode := by
  simp [opcodeOf, encodeI, BitVec.extractLsb'_or, extractLsb'_placed_same, extractLsb'_placed_disjoint]

@[simp] theorem rsOf_encodeI : rsOf (encodeI opcode rs rt imm) = rs := by
  simp [rsOf, encodeI, BitVec.extractLsb'_or, extractLsb'_placed_same, extractLsb'_placed_disjoint]

@[simp] theorem rtOf_encodeI : rtOf (encodeI opcode rs rt imm) = rt := by
  simp [rtOf, encodeI, BitVec.extractLsb'_or, extractLsb'_placed_same, extractLsb'_placed_disjoint]

@[simp] theorem imm16Of_encodeI : imm16Of (encodeI opcode rs rt imm) = imm := by
  simp [imm16Of, encodeI, BitVec.extractLsb'_or, extractLsb'_placed_same, extractLsb'_placed_disjoint]

end IFormat

@[simp] theorem opcodeOf_encodeJ (opcode : BitVec 6) (target : Target26) :
    opcodeOf (encodeJ opcode target) = opcode := by
  simp [opcodeOf, encodeJ, BitVec.extractLsb'_or, extractLsb'_placed_same, extractLsb'_placed_disjoint]

@[simp] theorem targetOf_encodeJ (opcode : BitVec 6) (target : Target26) :
    targetOf (encodeJ opcode target) = target := by
  simp [targetOf, encodeJ, BitVec.extractLsb'_or, extractLsb'_placed_same, extractLsb'_placed_disjoint]

/-- A word of the R-format is decoded by its `funct` field alone (30_encoding.md R96). -/
theorem decode_encodeR (rs rt rd : RegIx) (shamt : Shamt) (funct : BitVec 6) :
    decode (encodeR rs rt rd shamt funct) = decodeFunct (encodeR rs rt rd shamt funct) := by
  simp [decode]

/-- Decoding inverts encoding: the `funct` value settles the R-format, the opcode the other two (30_encoding.md R95,
R96), and every field an instruction has is read back. -/
theorem decode_encode (i : Instr) : decode (encode i) = .instr i := by
  cases i with
  | sll | srl | sra | jr | add | sub | and | or | nor | slt =>
    rw [encode, decode_encodeR]
    simp [decodeFunct]
  | beq | bne | addi | slti | andi | ori | lw | sw => simp [encode, decode]
  | j | jal => simp [encode, decode]

/-- Four bytes of a word, put together again most significant first, are the word (20_memory.md R61, R62). -/
theorem wordOfBytes_byteOfWord (v : Word) :
    wordOfBytes (byteOfWord v 0) (byteOfWord v 1) (byteOfWord v 2) (byteOfWord v 3) = v := by
  apply BitVec.eq_of_getLsbD_eq
  intro k hk
  interval_cases k <;> simp [wordOfBytes, byteOfWord]

end Sys2Proof

/-! ### One instruction by itself, as its passage through the pipeline (00_scope.md R11) -/

namespace Sys2Proof.Machine

/-- Of the rows of Execute only that of `sw` asks for a store (40_pipeline_stages.md R127). -/
theorem executeInstr_memop_ne_store {i : Instr} (hi : ∀ rs rt imm, i ≠ .sw rs rt imm) (d : IdEx) :
    (executeInstr i d).memop ≠ .store := by
  cases i with
  | sw rs rt imm => exact absurd rfl (hi rs rt imm)
  | _ => exact nofun

/-- A completion without a store does not depend on the word to be stored. -/
theorem State.complete_store_irrelevant (s : State) (i : Instr) {o : ExOut} (ho : o.memop ≠ .store) (v w : Word) :
    s.complete i o v = s.complete i o w := by
  unfold State.complete
  split
  · rfl
  · rfl
  · next hstore => exact absurd hstore ho

/-- The latch that Decode makes of an instruction's encoding at the pc. -/
def State.issueEncoded (s : State) (i : Instr) : IdEx := s.issue ⟨encode i, s.npc, s.pc, encode i⟩

/-- That latch, field by field (40_pipeline_stages.md R131). -/
theorem State.issueEncoded_eq (s : State) (i : Instr) :
    s.issueEncoded i = ⟨s.npc, s.readReg (rsOf (encode i)), s.readReg (rtOf (encode i)),
      immOf (.instr i) (encode i), destOf (.instr i), .instr i, s.pc, encode i⟩ := by
  simp [State.issueEncoded, State.issue, decode_encode]

/-- An instruction's effect is its row of Execute on that latch, completed. The latch's operands are the registers the
encoding names, whatever its format; the word to be stored matters for `sw` alone. -/
theorem exec_eq_complete_issueEncoded (i : Instr) (s : State) :
    exec i s = s.complete i (executeInstr i (s.issueEncoded i)) (s.readReg (rtOf (encode i))) := by
  cases i with
  | sw rs rt imm =>
    simp [exec, execSw, executeInstr, State.issueEncoded_eq, encode, immOf, signExtended]
  | sll | srl | sra | jr | add | sub | and | or | nor | slt =>
    rw [s.complete_store_irrelevant _ (executeInstr_memop_ne_store (by simp) _) _ 0#32]
    simp [exec, execSll, execSrl, execSra, execJr, execAdd, execSub, execAnd, execOr, execNor, execSlt,
      executeInstr, State.issueEncoded_eq, encode]
  | beq | bne | addi | slti | andi | ori | lw =>
    rw [s.complete_store_irrelevant _ (executeInstr_memop_ne_store (by simp) _) _ 0#32]
    simp [exec, execBeq, execBne, execAddi, execSlti, execAndi, execOri, execLw,
      executeInstr, State.issueEncoded_eq, encode, immOf, signExtended, zeroExtended]
  | j | jal =>
    rw [s.complete_store_irrelevant _ (executeInstr_memop_ne_store (by simp) _) _ 0#32]
    simp [exec, execJ, execJal, executeInstr, State.issueEncoded_eq]

/-! ### The outcomes of a step -/

/-- No instruction is refused: every row has a meaning. -/
theorem exec_ne_refused (i : Instr) (s : State) (r : Refusal) : exec i s ≠ .refused r := by
  obtain ⟨o, store, hexec⟩ := exec_eq_complete i s
  rw [hexec]
  exact s.complete_ne_refused i o store r

theorem stepCycle_ne_refused (s : State) (r : Refusal) : stepCycle s ≠ .refused r := by
  unfold stepCycle haltOutcome
  split <;> exact nofun

theorem stepSequential_ne_refused (s : State) (r : Refusal) : stepSequential s ≠ .refused r := by
  unfold stepSequential
  split
  · exact nofun
  · split
    · exact nofun
    · split
      · next i hi => exact exec_ne_refused i s r
      · exact nofun

theorem step_of_bad_parameters {s : State} (h : s.params.wellFormed = false) : step s = .refused .badParameters := by
  simp [step, h]

/-- With well-formed parameters a step is a fault or a step of one of the two machines, none of which refuses. -/
theorem step_ne_refused {s : State} (h : s.params.wellFormed = true) (r : Refusal) : step s ≠ .refused r := by
  unfold step
  rw [h]
  split
  · contradiction
  · split
    · exact nofun
    · split
      · exact stepCycle_ne_refused s r
      · exact stepSequential_ne_refused s r

/-- In range at an aligned pc, a sequential step performs the instruction that memory holds there
(70_reset_and_hazards.md R284). -/
theorem stepSequential_of_decode {s : State} {i : Instr} (ha : s.pcAligned = true) (hr : s.inFetchRange = true)
    (hi : decode (s.loadWord s.pc) = .instr i) : stepSequential s = exec i s := by
  simp [stepSequential, ha, hr, hi]

/-! ### Placing one instruction at the pc (assumption log 3) -/

/-- A word read where it was written, in a canonical image (20_memory.md R61, R62). -/
theorem readWord_writeWord {m : Memory} (hm : m.wf = true) (a : Nat) (v : Word) : readWord (writeWord m a v) a = v := by
  have h1 := wf_writeByte hm a (byteOfWord v 0)
  have h2 := wf_writeByte h1 (a + 1) (byteOfWord v 1)
  have h3 := wf_writeByte h2 (a + 2) (byteOfWord v 2)
  simp [readWord, writeWord, readByte_writeByte, hm, h1, h2, h3, wordOfBytes_byteOfWord]

section WithFetchWord

variable (s : State) (nbits w : Nat)

@[simp] theorem State.withFetchWord_params : (s.withFetchWord nbits w).params = s.params := rfl
@[simp] theorem State.withFetchWord_level : (s.withFetchWord nbits w).level = .sequential := rfl
@[simp] theorem State.withFetchWord_pc : (s.withFetchWord nbits w).pc = s.pc := rfl
@[simp] theorem State.withFetchWord_halt : (s.withFetchWord nbits w).halt = s.halt := rfl

end WithFetchWord

/-- The placed word is what is fetched at the pc. -/
theorem State.withFetchWord_loadWord {s : State} (hm : s.mem.wf = true) (w : Word) :
    (s.withFetchWord 32 w.toNat).loadWord s.pc = w := by
  have hw : BitVec.ofNat 32 (w.toNat % 2 ^ 32) = w := by
    rw [Nat.mod_eq_of_lt w.isLt, BitVec.ofNat_toNat, BitVec.setWidth_eq]
  unfold State.loadWord State.withFetchWord
  rw [hw]
  exact readWord_writeWord hm s.pc.toNat w

/-- Placing a word in a running core puts it before the sequential machine. -/
theorem State.withFetchWord_sequencing {s : State} (h : s.running = true) (nbits w : Nat) :
    (s.withFetchWord nbits w).sequencing = true := by
  simpa [State.sequencing, State.running] using h

end Sys2Proof.Machine

/-! ### The obligations of 00_scope.md -/

section

open Sys2Proof Sys2Proof.Machine

/-- Settles O25: every instruction's `exec` is its row on the latch of its encoding, completed. -/
theorem execIsThePassage : Obligations.ExecIsThePassage :=
  exec_eq_complete_issueEncoded

/-- Settles O28: the placed word is fetched, decodes to its instruction, and the sequential step performs that one. -/
theorem withFetchWordRunsTheWord : Obligations.WithFetchWordRunsTheWord := by
  intro s i hrun hmem haligned hrange
  have hdecode : decode ((s.withFetchWord 32 (encode i).toNat).loadWord s.pc) = .instr i := by
    rw [State.withFetchWord_loadWord hmem, decode_encode]
  rw [step_sequencing (State.withFetchWord_sequencing hrun _ _)]
  exact stepSequential_of_decode ((State.pcAligned_iff _).2 haligned) ((State.inFetchRange_iff _).2 hrange) hdecode

/-- Settles O46: ill-formed parameters are refused, and with well-formed ones neither machine refuses. -/
theorem refusesOnlyBadParameters : Obligations.RefusesOnlyBadParameters := by
  intro s
  refine ⟨step_of_bad_parameters, fun r hrefused => ?_⟩
  cases hwf : s.params.wellFormed with
  | false => rfl
  | true => exact absurd hrefused (step_ne_refused hwf r)

end

/-! ### A completed step is a chain of shared operations

Registers, pc, memory and latches change through four operations alone (10_state.md R32, R35, R40; 40_pipeline_stages.md
R139). What each of them keeps, every step keeps, at both levels.
-/

namespace Sys2Proof.Machine

/-- One application of a shared operation; a store is one at an address that passed the access check. -/
inductive Update : State → State → Prop where
  | writeReg (s : State) (r : RegIx) (v : Word) : Update s (s.writeReg r v)
  | setPc (s : State) (a : Word) : Update s (s.setPc a)
  | storeWord {s : State} {addr : Word} (hok : s.accessOk addr = true) (v : Word) : Update s (s.storeWord addr v)
  | commit (s : State) (f : Option IfId) (d : Option IdEx) (m : Option ExMem) (l : Option MemWb) :
      Update s (s.commit f d m l)

/-- A chain of shared operations. -/
abbrev Updates : State → State → Prop := Relation.ReflTransGen Update

theorem stageWb_updates (s : State) : Updates s (stageWb s) := by
  unfold stageWb
  split
  · exact .refl
  · next l hl => exact .single (.writeReg s l.dest l.value)

theorem stageMem_updates {s t : State} {l : Option MemWb} (h : stageMem s = .go t l) : Updates s t := by
  rcases stageMem_go h with
    ⟨-, rfl, -⟩ | ⟨m, -, ⟨-, rfl, -⟩ | ⟨-, -, rfl, -⟩ | ⟨-, hok, rfl, -⟩⟩
  · exact .refl
  · exact .refl
  · exact .refl
  · exact .single (.storeWord hok m.store)

theorem stageEx_updates {s t : State} {e : Option ExMem} {red : Bool} (h : stageEx s = .go t (e, red)) :
    Updates s t := by
  rcases stageEx_go h with ⟨-, rfl, -⟩ | ⟨d, i, -, -, -, ⟨a, -, rfl, -⟩ | ⟨-, rfl, -⟩⟩
  · exact .refl
  · exact .single (.setPc s a)
  · exact .refl

theorem stageIf_updates {s t : State} {red hold : Bool} {f : Option IfId} (h : stageIf s red hold = .go t f) :
    Updates s t := by
  rcases stageIf_go h with ⟨-, rfl, -⟩ | ⟨-, -, rfl, -⟩ | ⟨-, -, -, -, rfl, -⟩ | ⟨-, -, -, -, rfl, -⟩
  · exact .refl
  · exact .refl
  · exact .refl
  · exact .single (.setPc s s.npc)

/-- An instruction by itself: one write or one store, then the pc. -/
theorem exec_updates {i : Instr} {s t : State} (h : exec i s = .next t) : Updates s t := by
  obtain ⟨o, store, hexec⟩ := exec_eq_complete i s
  rw [hexec] at h
  rcases State.complete_next h with ⟨-, rfl⟩ | ⟨-, -, rfl⟩ | ⟨-, hok, rfl⟩
  · exact (Relation.ReflTransGen.single (.writeReg s _ _)).tail (.setPc _ _)
  · exact (Relation.ReflTransGen.single (.writeReg s _ _)).tail (.setPc _ _)
  · exact (Relation.ReflTransGen.single (.storeWord hok store)).tail (.setPc _ _)

/-- Every step that completes is such a chain: the stages of the tick in their order and the commit, or one
instruction. -/
theorem step_updates {s t : State} (h : step s = .next t) : Updates s t := by
  rcases step_next_running h with hticking | hsequencing
  · obtain ⟨s2, l, s3, e, red, s4, f, hmem, hex, hif, rfl⟩ := step_cycle_cases hticking h
    calc
      Updates s (stageWb s) := stageWb_updates s
      Updates _ s2 := stageMem_updates hmem
      Updates _ s3 := stageEx_updates hex
      Updates _ s4 := stageIf_updates hif
      Updates _ _ := .single (.commit s4 f _ e l)
  · rw [step_sequencing hsequencing] at h
    obtain ⟨-, ⟨-, rfl⟩ | ⟨-, i, -, hexec⟩⟩ := stepSequential_next h
    · exact .refl
    · exact exec_updates hexec

/-- A property that each shared operation keeps is kept by every step. -/
theorem step_keeps (P : State → Prop) (hP : ∀ {u v}, Update u v → P u → P v) {s t : State} (h : step s = .next t)
    (hs : P s) : P t := by
  have hchain := step_updates h
  clear h
  induction hchain with
  | refl => exact hs
  | tail _ hupdate ih => exact hP hupdate ih

/-! ### What the shared operations keep -/

theorem Update.params_eq {s t : State} (h : Update s t) : t.params = s.params := by
  cases h <;> simp

theorem Update.level_eq {s t : State} (h : Update s t) : t.level = s.level := by
  cases h <;> simp

/-- Nothing is ever put in the place of the hard-wired register (10_state.md R31). -/
theorem Update.slot_zero_eq {s t : State} (h : Update s t) : t.x[0] = s.x[0] := by
  cases h <;> simp

/-- The image stays canonical, whatever is stored. -/
theorem Update.mem_wf {s t : State} (h : Update s t) (hwf : s.mem.wf = true) : t.mem.wf = true := by
  cases h with
  | writeReg | setPc | commit => simpa using hwf
  | storeWord hok v => exact wf_writeWord hwf _ v

/-- The image stays inside `MEM_SIZE`, because a store passes the access check (20_memory.md R65). -/
theorem Update.mem_below {s t : State} (h : Update s t) (hbelow : s.mem.below s.params.memSize = true) :
    t.mem.below t.params.memSize = true := by
  cases h with
  | writeReg | setPc | commit => simpa using hbelow
  | storeWord hok v =>
    obtain ⟨-, hrange⟩ := (s.accessOk_iff _).1 hok
    exact below_writeWord hbelow hrange v

theorem State.invariant_iff (s : State) :
    s.invariant = true ↔ s.params.wellFormed = true ∧ s.mem.wf = true ∧ s.mem.below s.params.memSize = true ∧
      s.x[0] = 0#32 := by
  simp [State.invariant, and_assoc]

theorem Update.invariant {s t : State} (h : Update s t) (hinv : s.invariant = true) : t.invariant = true := by
  rw [State.invariant_iff] at hinv ⊢
  obtain ⟨hparams, hwf, hbelow, hzero⟩ := hinv
  exact ⟨h.params_eq ▸ hparams, h.mem_wf hwf, h.mem_below hbelow, h.slot_zero_eq.trans hzero⟩

/-! ### Alignment of transfer targets (44_branch_jump.md R207) -/

theorem add_four_aligned {a : Word} (h : a.toNat % 4 = 0) : (a + 4).toNat % 4 = 0 := by
  bv_omega

/-- A branch adds a multiple of 4, and wrapping at `2^32` keeps the remainder. -/
theorem branchTarget_aligned {npc : Word} (h : npc.toNat % 4 = 0) (imm : Word) :
    (branchTarget npc imm).toNat % 4 = 0 := by
  simp only [branchTarget, BitVec.toNat_add, BitVec.toNat_shiftLeft, Nat.shiftLeft_eq]
  omega

/-- A jump's two lowest bits are zero: those of the region and those of the scaled target field. -/
theorem jumpTarget_aligned (npc : Word) (target : Target26) : (jumpTarget npc target).toNat % 4 = 0 := by
  have hregion : (npc &&& 0xF0000000#32).toNat % 2 ^ 2 = 0 := by
    rw [BitVec.toNat_and, Nat.and_mod_two_pow]
    exact Nat.and_zero _
  have hfield : (target.zeroExtend 32 <<< 2).toNat % 2 ^ 2 = 0 := by
    simp only [BitVec.toNat_shiftLeft, Nat.shiftLeft_eq]
    omega
  calc (jumpTarget npc target).toNat % 2 ^ 2
      = (npc &&& 0xF0000000#32).toNat % 2 ^ 2 ||| (target.zeroExtend 32 <<< 2).toNat % 2 ^ 2 := by
        rw [jumpTarget, BitVec.toNat_or, Nat.or_mod_two_pow]
    _ = 0 := by rw [hregion, hfield]; rfl

/-- Every row of Execute but that of `jr` transfers to an aligned address, if it transfers at all. -/
theorem executeInstr_redirect_aligned {i : Instr} (hi : ∀ rs, i ≠ .jr rs) {d : IdEx} (hnpc : d.npc.toNat % 4 = 0)
    {a : Word} (ha : (executeInstr i d).redirect = some a) : a.toNat % 4 = 0 := by
  cases i with
  | jr rs => exact absurd rfl (hi rs)
  | beq | bne =>
    simp only [executeInstr, executeBeq, executeBne, ExOut.branch, Option.ite_none_right_eq_some,
      Option.some.injEq] at ha
    obtain ⟨-, rfl⟩ := ha
    exact branchTarget_aligned hnpc d.imm
  | j target | jal target =>
    cases ha
    exact jumpTarget_aligned d.npc target
  | _ => cases ha

/-- A completed instruction leaves the pc at its transfer's target, or else at the next instruction. -/
theorem State.complete_next_pc {s t : State} {i : Instr} {o : ExOut} {store : Word}
    (h : s.complete i o store = .next t) : t.pc = o.redirect.getD s.npc := by
  rcases State.complete_next h with ⟨-, rfl⟩ | ⟨-, -, rfl⟩ | ⟨-, -, rfl⟩ <;> rfl

/-- `jr` goes to the value of its register, aligned or not (44_branch_jump.md R203). -/
theorem exec_jr (rs : RegIx) (s : State) : exec (.jr rs) s = .next (s.setPc (s.readReg rs)) := rfl

/-- From an aligned pc every instruction but `jr` leaves an aligned one. -/
theorem exec_pc_aligned {i : Instr} (hi : ∀ rs, i ≠ .jr rs) {s t : State} (hs : s.pc.toNat % 4 = 0)
    (h : exec i s = .next t) : t.pc.toNat % 4 = 0 := by
  rw [exec_eq_complete_issueEncoded] at h
  rw [State.complete_next_pc h]
  have hnpc : s.npc.toNat % 4 = 0 := add_four_aligned hs
  cases hredirect : (executeInstr i (s.issueEncoded i)).redirect with
  | none => exact hnpc
  | some a => exact executeInstr_redirect_aligned hi hnpc hredirect

/-! ### The pc in a tick (10_state.md R35) -/

/-- The target of the taken transfer in Execute, if there is one (40_pipeline_stages.md R128). -/
def State.takenTarget (s : State) : Option Word := s.idex.bind redirectOf

theorem State.flushing_eq (s : State) : s.flushing = s.takenTarget.isSome := by
  unfold State.flushing State.takenTarget
  split
  · next d hd => rw [hd]; rfl
  · next hd => rw [hd]; rfl

theorem redirectOf_instr {d : IdEx} {i : Instr} (h : d.op = .instr i) :
    redirectOf d = (executeInstr i d).redirect := by
  simp [redirectOf, h]

/-- Memory access changes the memory alone. -/
theorem stageMem_go_eq {s t : State} {l : Option MemWb} (h : stageMem s = .go t l) : ∃ m, t = { s with mem := m } := by
  rcases stageMem_go h with
    ⟨-, rfl, -⟩ | ⟨m, -, ⟨-, rfl, -⟩ | ⟨-, -, rfl, -⟩ | ⟨-, -, rfl, -⟩⟩ <;> exact ⟨_, rfl⟩

@[simp] theorem State.setPc_self (s : State) : s.setPc s.pc = s := rfl

/-- Execute raises the flush signal for a taken transfer, and changes nothing but the pc, to its target. -/
theorem stageEx_go_eq {s t : State} {e : Option ExMem} {red : Bool} (h : stageEx s = .go t (e, red)) :
    red = s.flushing ∧ t = s.setPc (s.takenTarget.getD s.pc) := by
  rw [State.flushing_eq, State.takenTarget]
  rcases stageEx_go h with ⟨hd, rfl, -, rfl⟩ | ⟨d, i, hd, hop, -, hred⟩
  · simp [hd]
  · rw [hd, Option.bind_some, redirectOf_instr hop]
    rcases hred with ⟨a, ha, rfl, rfl⟩ | ⟨hnone, rfl, rfl⟩
    · simp [ha]
    · simp [hnone]

/-- Decode's hold signal, given the flush signal of the same latches, is the hold of the hazard unit (R223). -/
theorem stageId_hold (s : State) : (stageId s s.flushing).2 = s.holding := by
  unfold State.holding State.stallRequest stageId
  cases s.ifid with
  | none => rfl
  | some f => cases s.flushing <;> cases hhazard : s.hazard f.ir <;> simp [hhazard]

/-- Under the signals of its own latches Fetch moves the pc on exactly when it fetches. -/
theorem stageIf_go_pc {s t : State} {f : Option IfId} (h : stageIf s s.flushing s.holding = .go t f) :
    t.pc = if s.fetching then s.npc else s.pc := by
  rcases stageIf_go h with
    ⟨hred, rfl, -⟩ | ⟨-, hhold, rfl, -⟩ | ⟨-, -, -, hrange, rfl, -⟩ | ⟨hred, hhold, haligned, hrange, rfl, -⟩
  · simp [State.fetching, hred]
  · simp [State.fetching, hhold]
  · simp [State.fetching, hrange]
  · simp [State.fetching, hred, hhold, haligned, hrange]

section Signals

variable {s t : State}

/-- The flush depends on the ID/EX latch alone. -/
theorem State.flushing_congr (hidex : t.idex = s.idex) : t.flushing = s.flushing := by
  simp [State.flushing, hidex]

/-- The hold depends on the three latches of Decode, Execute and Memory access alone (R220). -/
theorem State.holding_congr (hifid : t.ifid = s.ifid) (hidex : t.idex = s.idex) (hexmem : t.exmem = s.exmem) :
    t.holding = s.holding := by
  simp [State.holding, State.stallRequest, State.flushing, State.hazard, State.hazardEx, State.hazardMem, hifid, hidex,
    hexmem]

end Signals

/-- The state in which Decode and Fetch are evaluated: the latches are those of the start of the tick, and the pc is the
target of a taken transfer if there is one. -/
theorem afterExecute_frame {s s2 s3 : State} {l : Option MemWb} {e : Option ExMem} {red : Bool}
    (hmem : stageMem (stageWb s) = .go s2 l) (hex : stageEx s2 = .go s3 (e, red)) :
    red = s.flushing ∧ s3.pc = s.takenTarget.getD s.pc ∧ s3.params = s.params ∧ s3.ifid = s.ifid ∧ s3.idex = s.idex ∧
      s3.exmem = s.exmem := by
  obtain ⟨m, rfl⟩ := stageMem_go_eq hmem
  obtain ⟨rfl, rfl⟩ := stageEx_go_eq hex
  simp [State.flushing_eq, State.takenTarget]

/-- The pc after a completed tick. -/
theorem step_cycle_pc {s t : State} (hs : s.ticking = true) (h : step s = .next t) :
    t.pc = if s.fetching then s.npc else s.takenTarget.getD s.pc := by
  obtain ⟨s2, l, s3, e, red, s4, f, hmem, hex, hif, rfl⟩ := step_cycle_cases hs h
  obtain ⟨hred, hpc, hparams, hifid, hidex, hexmem⟩ := afterExecute_frame hmem hex
  have hflush : s3.flushing = s.flushing := State.flushing_congr hidex
  rw [hred, ← hflush, stageId_hold] at hif
  rw [State.commit_pc, stageIf_go_pc hif]
  have hhold : s3.holding = s.holding := State.holding_congr hifid hidex hexmem
  cases htarget : s.takenTarget with
  | some a =>
    have hflushing : s.flushing = true := by rw [State.flushing_eq, htarget]; rfl
    simp [State.fetching, hflush, hflushing, hpc, htarget]
  | none =>
    rw [htarget, Option.getD_none] at hpc
    simp [State.fetching, State.pcAligned, State.inFetchRange, State.npc, hflush, hhold, hpc, hparams]

/-! ### A halted core (10_state.md R47) -/

theorem tick_of_halted {s : State} {r : HaltRecord} (h : s.halt = some r) : tick s = s := by
  simp [tick, h]

theorem step_of_halted {s : State} {r : HaltRecord} (hwf : s.params.wellFormed = true) (h : s.halt = some r) :
    step s = .fault (Fault.ofRecord r) := by
  simp [step, hwf, h]

@[simp] theorem State.assertReset_halt (s : State) : s.assertReset.halt = none := rfl

end Sys2Proof.Machine

/-! ### The obligations of 10_state.md -/

section

open Sys2Proof Sys2Proof.Machine

/-- Settles O52: each shared operation keeps the invariant, and a step is a chain of them. -/
theorem stepKeepsInvariant : Obligations.StepKeepsInvariant := by
  intro s t hinv hstep
  exact step_keeps (fun u => u.invariant = true) Update.invariant hstep hinv

/-- Settles O24: every instruction but `jr` keeps the pc aligned, and `jr` goes to its register's value. -/
theorem onlyJumpRegisterMisaligns : Obligations.OnlyJumpRegisterMisaligns := by
  intro i s t haligned hexec hmisaligned
  by_cases hi : ∃ rs, i = .jr rs
  · obtain ⟨rs, rfl⟩ := hi
    rw [exec_jr] at hexec
    cases hexec
    exact ⟨rs, rfl, hmisaligned⟩
  · exact absurd (exec_pc_aligned (not_exists.1 hi) haligned hexec) hmisaligned

/-- Settles O39: the three ways are the three cases of the pc after a tick; a taken transfer is a flush, in which Fetch
does not fetch. -/
theorem pcAdvance : Obligations.PcAdvance := by
  intro s t hticking hstep
  have hpc := step_cycle_pc hticking hstep
  refine ⟨fun d target hd hredirect => ?_, fun hfetching => ?_, fun hflushing hfetching => ?_⟩
  · have htarget : s.takenTarget = some target := by rw [State.takenTarget, hd]; exact hredirect
    have hfetching : s.fetching = false := by simp [State.fetching, State.flushing_eq, htarget]
    rw [hfetching, htarget] at hpc
    exact ⟨hpc, hfetching⟩
  · rw [hfetching] at hpc
    exact hpc
  · rw [State.flushing_eq, Option.isSome_eq_false_iff, Option.isNone_iff_eq_none] at hflushing
    rw [hfetching, hflushing] at hpc
    exact hpc

/-- Settles O51: no shared operation changes the parameters or the level, so no chain of them does. -/
theorem parametersNeverChange : Obligations.ParametersNeverChange := by
  intro s t hstep
  exact ⟨step_keeps (fun u => u.params = s.params) (fun hupdate => hupdate.params_eq.trans) hstep rfl,
    step_keeps (fun u => u.level = s.level) (fun hupdate => hupdate.level_eq.trans) hstep rfl⟩

/-- Settles O9: register 0 is hard-wired in the accessors, so it reads zero wherever a run leads. -/
theorem registerFile : Obligations.RegisterFile := by
  refine ⟨State.readReg_zero, State.writeReg_zero, fun s r q v hr => ?_, fun s t k _ => t.readReg_zero⟩
  have hwritten : r ≠ 0#5 := hr
  rw [State.readReg_writeReg, if_neg hwritten]

/-- Settles O43: the record stops the tick before any stage, and the step before either machine; reset has none. -/
theorem haltedCoreStays : Obligations.HaltedCoreStays := by
  intro s r hhalt
  exact ⟨tick_of_halted hhalt, fun hwf => step_of_halted hwf hhalt, s.assertReset_halt⟩

end

/-! ### The bytes of a word as numbers (20_memory.md R61, R62) -/

namespace Sys2Proof

/-- A byte shifted left inside a word loses no bit. -/
theorem toNat_zeroExtend_shiftLeft (b : Byte) {k : Nat} (hk : k ≤ 24) :
    (b.zeroExtend 32 <<< k).toNat = b.toNat <<< k := by
  have hle : b.toNat * 2 ^ k ≤ b.toNat * 2 ^ 24 := Nat.mul_le_mul_left _ (Nat.pow_le_pow_right (by omega) hk)
  rw [BitVec.toNat_shiftLeft, BitVec.toNat_setWidth_of_le (by omega), Nat.shiftLeft_eq]
  exact Nat.mod_eq_of_lt (by omega)

/-- The value of a word is the big-endian value of its bytes: each byte stands above all that follow, so that joining
them is adding. -/
theorem toNat_wordOfBytes (b0 b1 b2 b3 : Byte) :
    (wordOfBytes b0 b1 b2 b3).toNat =
      b0.toNat * 16777216 + b1.toNat * 65536 + b2.toNat * 256 + b3.toNat := by
  have hlast : (b3.zeroExtend 32).toNat = b3.toNat := BitVec.toNat_setWidth_of_le (by omega)
  calc (wordOfBytes b0 b1 b2 b3).toNat
      = b0.toNat <<< 24 ||| (b1.toNat <<< 16 ||| (b2.toNat <<< 8 ||| b3.toNat)) := by
        simp only [wordOfBytes, BitVec.toNat_or, toNat_zeroExtend_shiftLeft, Nat.reduceLeDiff, hlast, Nat.or_assoc]
    _ = b0.toNat <<< 24 + (b1.toNat <<< 16 + (b2.toNat <<< 8 + b3.toNat)) := by
        rw [← Nat.shiftLeft_add_eq_or_of_lt (i := 8) (by omega), ← Nat.shiftLeft_add_eq_or_of_lt (i := 16) (by omega),
          ← Nat.shiftLeft_add_eq_or_of_lt (i := 24) (by omega)]
    _ = b0.toNat * 16777216 + b1.toNat * 65536 + b2.toNat * 256 + b3.toNat := by omega

/-- The value of one byte of a word. -/
theorem toNat_byteOfWord (v : Word) (i : Nat) : (byteOfWord v i).toNat = v.toNat / 2 ^ (24 - 8 * i) % 256 := by
  rw [byteOfWord, BitVec.extractLsb'_toNat, Nat.shiftRight_eq_div_pow]

end Sys2Proof

namespace Sys2Proof.Machine

/-! ### The bytes that a word write sets -/

/-- In a canonical image a word write sets each of its four bytes to that byte of the word. -/
theorem readByte_writeWord {m : Memory} (hm : m.wf = true) (a : Nat) (v : Word) {k : Nat} (hk : k < 4) :
    readByte (writeWord m a v) (a + k) = byteOfWord v k := by
  have h1 := wf_writeByte hm a (byteOfWord v 0)
  have h2 := wf_writeByte h1 (a + 1) (byteOfWord v 1)
  have h3 := wf_writeByte h2 (a + 2) (byteOfWord v 2)
  interval_cases k <;> simp [writeWord, readByte_writeByte, hm, h1, h2, h3]

/-! ### The word that Fetch latches (40_pipeline_stages.md R136) -/

@[simp] theorem State.setPc_loadWord (s : State) (t addr : Word) : (s.setPc t).loadWord addr = s.loadWord addr := rfl

@[simp] theorem State.commit_loadWord (s : State) (f : Option IfId) (d : Option IdEx) (m : Option ExMem)
    (l : Option MemWb) (addr : Word) : (s.commit f d m l).loadWord addr = s.loadWord addr := rfl

/-- Fetch fetches exactly without a flush and a hold, at a pc that is aligned and in range. -/
theorem State.fetching_iff (s : State) :
    s.fetching = true ↔
      s.flushing = false ∧ s.holding = false ∧ s.pcAligned = true ∧ s.inFetchRange = true := by
  simp [State.fetching, and_assoc]

/-- Fetching depends on the latches of Decode, Execute and Memory access, the pc and the parameters alone. -/
theorem State.fetching_congr {s t : State} (hifid : t.ifid = s.ifid) (hidex : t.idex = s.idex)
    (hexmem : t.exmem = s.exmem) (hpc : t.pc = s.pc) (hparams : t.params = s.params) : t.fetching = s.fetching := by
  simp [State.fetching, State.pcAligned, State.inFetchRange, State.flushing_congr hidex,
    State.holding_congr hifid hidex hexmem, hpc, hparams]

/-- A Fetch that fetches moves the pc on and latches the word at the pc. -/
theorem stageIf_go_of_fetching {s t : State} {f : Option IfId} (hs : s.fetching = true)
    (h : stageIf s s.flushing s.holding = .go t f) :
    t = s.setPc s.npc ∧ f = some ⟨s.loadWord s.pc, s.npc, s.pc, s.loadWord s.pc⟩ := by
  obtain ⟨hflush, hhold, haligned, hrange⟩ := s.fetching_iff.1 hs
  rcases stageIf_go h with
    ⟨hred, -⟩ | ⟨-, hheld, -⟩ | ⟨-, -, -, hidle, -⟩ | ⟨-, -, -, -, ht, hf⟩
  · simp [hflush] at hred
  · simp [hhold] at hheld
  · simp [hrange] at hidle
  · exact ⟨ht, hf⟩

/-- The IF/ID latch after a completed tick that fetches. No stage after Memory access writes the memory, so the word is
the one a load reads in the state that the tick leaves. -/
theorem step_cycle_fetched {s t : State} (hs : s.ticking = true) (hfetching : s.fetching = true)
    (h : step s = .next t) : t.ifid = some ⟨t.loadWord s.pc, s.npc, s.pc, t.loadWord s.pc⟩ := by
  obtain ⟨s2, l, s3, e, red, s4, f, hmem, hex, hif, rfl⟩ := step_cycle_cases hs h
  obtain ⟨hred, hpc, hparams, hifid, hidex, hexmem⟩ := afterExecute_frame hmem hex
  have hflush : s3.flushing = s.flushing := State.flushing_congr hidex
  rw [hred, ← hflush, stageId_hold] at hif
  have hsame : s3.pc = s.pc := by
    obtain ⟨hnoflush, -⟩ := s.fetching_iff.1 hfetching
    rw [State.flushing_eq, Option.isSome_eq_false_iff, Option.isNone_iff_eq_none] at hnoflush
    rw [hpc, hnoflush, Option.getD_none]
  have hfetching3 : s3.fetching = true := (State.fetching_congr hifid hidex hexmem hsame hparams).trans hfetching
  obtain ⟨rfl, rfl⟩ := stageIf_go_of_fetching hfetching3 hif
  simp [State.npc, hsame]

end Sys2Proof.Machine

/-! ### The obligations of 20_memory.md -/

section

open Sys2Proof Sys2Proof.Machine

/-- Settles O10: a word's value is that of its four bytes, and the word a tick latches is read from the memory it
leaves. -/
theorem wordReadBigEndian : Obligations.WordReadBigEndian := by
  refine ⟨fun s addr => toNat_wordOfBytes _ _ _ _, fun s t hticking hfetching hstep => ?_⟩
  rw [step_cycle_fetched hticking hfetching hstep, Option.map_some]

/-- Settles O11: each byte read is a byte of the word, a read elsewhere is the old one, and the four bytes together are
the word. -/
theorem wordWriteBigEndian : Obligations.WordWriteBigEndian := by
  intro s addr v hm
  have hbyte (k : Nat) (hk : k < 4) :
      (readByte (s.storeWord addr v).mem (addr.toNat + k)).toNat = v.toNat / 2 ^ (24 - 8 * k) % 256 := by
    rw [State.storeWord_mem, readByte_writeWord hm _ _ hk, toNat_byteOfWord]
  refine ⟨?_, hbyte 1 (by omega), hbyte 2 (by omega), ?_, fun a ha => readByte_writeWord_other s.mem v ha,
    readWord_writeWord hm _ v⟩
  · have htop : v.toNat / 16777216 < 256 := by omega
    exact (hbyte 0 (by omega)).trans (Nat.mod_eq_of_lt htop)
  · simpa using hbyte 3 (by omega)

end

/-! ### The rows of the opcode table (30_encoding.md R108) -/

namespace Sys2Proof

/-- A row of an R-format instruction masks the opcode and the `funct` field, any other row the opcode alone. -/
theorem Instr.row_mask (i : Instr) : i.row.mask = if i.format = .r then 0xFC00003F else 0xFC000000 := by
  cases i <;> rfl

/-- The encoding of an instruction lies in its row, whatever its operands. -/
theorem Instr.row_holds_encode (i : Instr) : i.row.holds (encode i) = true := by
  cases i with
  | sll | srl | sra | jr | add | sub | and | or | nor | slt => exact decide_eq_true (encodeR_mask ..)
  | beq | bne | addi | slti | andi | ori | lw | sw => exact decide_eq_true (encodeI_mask ..)
  | j | jal => exact decide_eq_true (encodeJ_mask ..)

/-- Two words agree under the mask of an opcode exactly when their opcodes agree. -/
theorem and_opcodeMask_eq_iff (w v : Word) : w &&& 0xFC000000 = v &&& 0xFC000000 ↔ opcodeOf w = opcodeOf v := by
  have hmask (u : Word) : u &&& 0xFC000000 = placed 6 (opcodeOf u) 26 := by
    apply BitVec.eq_of_getLsbD_eq
    intro k hk
    interval_cases k <;> simp [placed, opcodeOf]
  rw [hmask, hmask]
  refine ⟨fun h => ?_, fun h => by rw [h]⟩
  simpa [extractLsb'_placed_same] using congrArg (BitVec.extractLsb' 26 6) h

/-- Two words agree under the mask of a `funct` value exactly when their opcodes and their `funct` fields agree. -/
theorem and_functMask_eq_iff (w v : Word) :
    w &&& 0xFC00003F = v &&& 0xFC00003F ↔ opcodeOf w = opcodeOf v ∧ functOf w = functOf v := by
  have hmask (u : Word) : u &&& 0xFC00003F = placed 6 (opcodeOf u) 26 ||| placed 6 (functOf u) 0 := by
    apply BitVec.eq_of_getLsbD_eq
    intro k hk
    interval_cases k <;> simp [placed, opcodeOf, functOf]
  rw [hmask, hmask]
  refine ⟨fun h => ⟨?_, ?_⟩, fun ⟨hopcode, hfunct⟩ => by rw [hopcode, hfunct]⟩
  · simpa [BitVec.extractLsb'_or, extractLsb'_placed_same, extractLsb'_placed_disjoint] using
      congrArg (BitVec.extractLsb' 26 6) h
  · simpa [BitVec.extractLsb'_or, extractLsb'_placed_same, extractLsb'_placed_disjoint] using
      congrArg (BitVec.extractLsb' 0 6) h

/-- A word lies in an instruction's row exactly when it has the opcode of the instruction's encoding and, in the
R-format, its `funct` value. -/
theorem Instr.row_holds_iff (i : Instr) (w : Word) :
    i.row.holds w = true ↔
      opcodeOf w = opcodeOf (encode i) ∧ (i.format = .r → functOf w = functOf (encode i)) := by
  have hencode : encode i &&& i.row.mask = i.row.pattern := of_decide_eq_true i.row_holds_encode
  rw [TableRow.holds, decide_eq_true_iff, ← hencode, i.row_mask]
  split_ifs with hr
  · rw [and_functMask_eq_iff]
    exact ⟨fun ⟨hopcode, hfunct⟩ => ⟨hopcode, fun _ => hfunct⟩, fun ⟨hopcode, hfunct⟩ => ⟨hopcode, hfunct hr⟩⟩
  · rw [and_opcodeMask_eq_iff]
    exact ⟨fun hopcode => ⟨hopcode, fun hformat => absurd hformat hr⟩, And.left⟩

/-- The table row of a decoded operation; an unsupported encoding has none. -/
def Op.row : Op → Option TableRow
  | .instr i => some i.row
  | .illegal _ => none

/-- A word in an instruction's row decodes to an operation of that row. -/
theorem decode_row_of_holds {w : Word} {i : Instr} (h : i.row.holds w = true) : (decode w).row = some i.row := by
  obtain ⟨hopcode, hfunct⟩ := (i.row_holds_iff w).1 h
  cases i with
  | sll | srl | sra | jr | add | sub | and | or | nor | slt =>
    replace hfunct := hfunct rfl
    simp only [encode, opcodeOf_encodeR, functOf_encodeR] at hopcode hfunct
    simp [decode, decodeFunct, hopcode, hfunct, Op.row, Instr.row]
  | beq | bne | addi | slti | andi | ori | lw | sw =>
    simp only [encode, opcodeOf_encodeI] at hopcode
    simp [decode, hopcode, Op.row, Instr.row]
  | j | jal =>
    simp only [encode, opcodeOf_encodeJ] at hopcode
    simp [decode, hopcode, Op.row, Instr.row]

/-- What decoding a word may answer: an instruction in whose row the word lies, or the raw word itself as unsupported
(30_encoding.md R107). -/
def Op.fits (w : Word) : Op → Prop
  | .instr i => i.row.holds w = true
  | .illegal v => v = w

/-- Under opcode 0 each `funct` value answers with the instruction of its own row (30_encoding.md R96). -/
theorem decodeFunct_fits {w : Word} (hopcode : opcodeOf w = 0) : (decodeFunct w).fits w := by
  unfold decodeFunct
  iterate 10
    refine iteInduction (motive := Op.fits w) (fun hfunct => ?_) fun _ => ?_
    · exact (Instr.row_holds_iff _ w).2 ⟨by simpa [encode] using hopcode, fun _ => by simpa [encode] using hfunct⟩
  exact rfl

/-- Each opcode answers with the instruction of its own row (30_encoding.md R95). -/
theorem decode_fits (w : Word) : (decode w).fits w := by
  unfold decode
  refine iteInduction (motive := Op.fits w) decodeFunct_fits fun _ => ?_
  iterate 10
    refine iteInduction (motive := Op.fits w) (fun hopcode => ?_) fun _ => ?_
    · exact (Instr.row_holds_iff _ w).2 ⟨by simpa [encode] using hopcode, nofun⟩
  exact rfl

/-- An instruction outside the J-format names both register fields, used or not (45_hazard_unit.md R220). -/
theorem srcsOf_of_decode {w : Word} {i : Instr} (h : decode w = .instr i) (hi : i.format ≠ .j) :
    srcsOf w = [rsOf w, rtOf w] := by
  simp [srcsOf, h, hi]

/-- The R-format instructions that leave `rs` or `rt` unused are still read and compared by both. -/
theorem srcsOf_encodeR (rs rt rd : RegIx) (shamt : Shamt) {funct : BitVec 6}
    (h : funct ∈ [0x00#6, 0x02#6, 0x03#6, 0x08#6]) : srcsOf (encodeR rs rt rd shamt funct) = [rs, rt] := by
  have hinstr : ∃ i, decode (encodeR rs rt rd shamt funct) = .instr i ∧ i.format ≠ .j := by
    simp only [List.mem_cons, List.not_mem_nil, or_false] at h
    rcases h with rfl | rfl | rfl | rfl <;> simp [decode_encodeR, decodeFunct, Instr.format]
  obtain ⟨i, hdecode, hformat⟩ := hinstr
  rw [srcsOf_of_decode hdecode hformat, rsOf_encodeR, rtOf_encodeR]

/-! ### The extended immediate (30_encoding.md R101) -/

theorem toNat_imm16Of (w : Word) : (imm16Of w).toNat = w.toNat % 65536 := by
  simp [imm16Of, BitVec.extractLsb'_toNat]

theorem toNat_zeroExtend_imm16Of (w : Word) : ((imm16Of w).zeroExtend 32).toNat = w.toNat % 65536 := by
  rw [BitVec.toNat_setWidth_of_le (by omega), toNat_imm16Of]

theorem toInt_signExtend_imm16Of (w : Word) :
    ((imm16Of w).signExtend 32).toInt = ((w.toNat % 65536 : Nat) : Int).bmod 65536 := by
  rw [BitVec.toInt_signExtend_of_le (by omega), BitVec.toInt_eq_toNat_bmod, toNat_imm16Of]

/-- Every operation but `andi` and `ori` has its immediate sign-extended. -/
theorem immOf_eq_signExtend {op : Op} (handi : ∀ rs rt imm, op ≠ .instr (.andi rs rt imm))
    (hori : ∀ rs rt imm, op ≠ .instr (.ori rs rt imm)) (w : Word) : immOf op w = (imm16Of w).signExtend 32 := by
  unfold immOf
  split
  · next rs rt imm => exact absurd rfl (handi rs rt imm)
  · next rs rt imm => exact absurd rfl (hori rs rt imm)
  · rfl

end Sys2Proof

namespace Sys2Proof.Machine

/-- A branch scales its immediate by the size of an instruction. -/
theorem branchTarget_eq (npc imm : Word) : branchTarget npc imm = npc + imm * 4#32 := by
  simp only [branchTarget]
  bv_omega

/-- Only the I-format's rows of Execute read the immediate. -/
theorem executeInstr_imm_irrelevant {i : Instr} (hi : i.format ≠ .i) (d : IdEx) (v : Word) :
    executeInstr i { d with imm := v } = executeInstr i d := by
  cases i with
  | beq | bne | addi | slti | andi | ori | lw | sw => exact absurd rfl hi
  | _ => rfl

/-! ### The assembler's fields (30_encoding.md R111) -/

/-- An offset that the assembler answers with is the exact quotient of the distance, inside the range of 16 bits. -/
theorem asmBranch_eq_some {here label : Word} {offset : Imm16} (h : asmBranch here label = some offset) :
    (label - (here + 4)).toInt = 4 * offset.toInt := by
  simp only [asmBranch, asmSigned, Option.ite_none_right_eq_some, Option.some.injEq] at h
  obtain ⟨hwhole, ⟨hlow, hhigh⟩, rfl⟩ := h
  rw [BitVec.toInt_ofInt, Int.bmod_eq_of_le (by omega) (by omega)]
  omega

/-- An offset scaled by 4 in 32 bits is the distance whose exact quotient by 4 it is: nothing wraps. -/
theorem signExtended_mul_four {imm : Imm16} {d : Word} (h : d.toInt = 4 * imm.toInt) :
    signExtended imm * 4#32 = d := by
  have hext : (signExtended imm).toInt = imm.toInt := BitVec.toInt_signExtend_of_le (by omega)
  apply BitVec.eq_of_toInt_eq
  calc (signExtended imm * 4#32).toInt
      = d.toInt.bmod (2 ^ 32) := by rw [BitVec.toInt_mul, hext, h, Int.mul_comm]; rfl
    _ = d.toInt := d.toInt_bmod_cancel

/-- The target of a jump as a number: the region of `npc`, and the target field scaled by 4 (30_encoding.md R100). -/
theorem toNat_jumpTarget (npc : Word) (target : Target26) :
    (jumpTarget npc target).toNat = npc.toNat / 268435456 * 268435456 + target.toNat * 4 := by
  have hregion : npc &&& 0xF0000000#32 = (npc >>> 28) <<< 28 := by
    apply BitVec.eq_of_getLsbD_eq
    intro k hk
    interval_cases k <;> simp
  have hfield : (target.zeroExtend 32 <<< 2).toNat = target.toNat * 4 := by
    simp only [BitVec.toNat_shiftLeft, BitVec.truncate_eq_setWidth, BitVec.toNat_setWidth, Nat.shiftLeft_eq]
    omega
  calc (jumpTarget npc target).toNat
      = (npc.toNat / 268435456) <<< 28 ||| target.toNat * 4 := by
        rw [jumpTarget, BitVec.toNat_or, hfield, hregion, BitVec.toNat_shiftLeft, BitVec.toNat_ushiftRight,
          Nat.shiftRight_eq_div_pow, Nat.mod_eq_of_lt (by rw [Nat.shiftLeft_eq]; omega)]
    _ = (npc.toNat / 268435456) <<< 28 + target.toNat * 4 := (Nat.shiftLeft_add_eq_or_of_lt (by omega) _).symm
    _ = npc.toNat / 268435456 * 268435456 + target.toNat * 4 := by rw [Nat.shiftLeft_eq]

theorem toNat_asmTarget (label : Word) : (asmTarget label).toNat = label.toNat / 4 % 67108864 := by
  rw [asmTarget, BitVec.extractLsb'_toNat, Nat.shiftRight_eq_div_pow]

/-! ### The no-op (30_encoding.md R110) -/

/-- A word that names register 0 alone meets no hazard: a destination 0 is none (45_hazard_unit.md R221). -/
theorem State.hazard_of_srcs_zero (s : State) {w : Word} (h : ∀ r ∈ srcsOf w, r = 0#5) : s.hazard w = false := by
  have hdest (dest : RegIx) : (decide (dest ≠ 0#5) && decide (dest ∈ srcsOf w)) = false := by
    simpa using fun hne hmem => hne (h dest hmem)
  have hex : s.hazardEx w = false := by
    unfold State.hazardEx
    split
    · exact hdest _
    · rfl
  have hmem : s.hazardMem w = false := by
    unfold State.hazardMem
    split
    · exact hdest _
    · rfl
  rw [State.hazard, hex, hmem, Bool.or_false]

/-- Decode issues an instruction that meets neither a flush nor a hazard. -/
theorem stageId_of_no_hazard {s : State} {f : IfId} (hf : s.ifid = some f) (h : s.hazard f.ir = false) :
    stageId s false = (some (s.issue f), false) := by
  simp [stageId, hf, h]

/-- The no-op only moves the pc on. -/
theorem exec_nop (s : State) : exec nop s = .next (s.setPc (s.pc + 4)) := rfl

end Sys2Proof.Machine

/-! ### The obligations of 30_encoding.md -/

section

open Sys2Proof Sys2Proof.Machine

/-- Settles O1: the opcode and `funct` values tell the instructions apart, and every field is read back. -/
theorem decodeOfEncode : Obligations.DecodeOfEncode := decode_encode

/-- Settles O2: the four bytes put together are the encoded word, which decodes to its instruction. -/
theorem decodeBytesOfEncode : Obligations.DecodeBytesOfEncode := by
  intro i rest
  simp only [decodeBytes, wordOfBytes_byteOfWord, decode_encode]

/-- Settles O3: decoding answers with an operation that fits the word, and a word in any instruction's row decodes to
an operation of that row. -/
theorem wordInOneRowOrUnsupported : Obligations.WordInOneRowOrUnsupported := by
  intro w
  have hfits := decode_fits w
  have hrow (j : Instr) (hj : j.row.holds w = true) := decode_row_of_holds hj
  generalize decode w = op at hfits hrow ⊢
  cases op with
  | instr i => exact .inl ⟨i, rfl, hfits, fun j hj => (Option.some.inj (hrow j hj)).symm⟩
  | illegal v => exact .inr ⟨congrArg Op.illegal hfits, fun j => Bool.eq_false_iff.2 fun hj => nomatch hrow j hj⟩

/-- Settles O4: the R-format is selected by `funct` alone, and `srcs` and Decode read bits 25:16 whatever it is. -/
theorem unusedFieldsIgnored : Obligations.UnusedFieldsIgnored := by
  intro rs rt rd shamt
  refine ⟨?_, ?_, ?_, ?_, ?_, ?_, ?_, ?_, ?_, ?_, fun funct hfunct => ⟨?_, fun s f hf => ?_⟩⟩
  iterate 10 · simp [decode_encodeR, decodeFunct]
  · exact srcsOf_encodeR rs rt rd shamt hfunct
  · simp [State.issue, hf]

/-- Settles O5: the immediate that Decode latches, a branch's scaling of it in Execute, and who reads it. -/
theorem immediateExtension : Obligations.ImmediateExtension := by
  refine ⟨fun s f => ?_, fun d rs rt imm => ⟨branchTarget_eq d.npc d.imm, branchTarget_eq d.npc d.imm⟩,
    fun i d v hi => executeInstr_imm_irrelevant hi d v⟩
  have himm : (s.issue f).imm = immOf (decode f.ir) f.ir := rfl
  rw [himm]
  split
  · next hop => rw [hop]; exact toNat_zeroExtend_imm16Of f.ir
  · next hop => rw [hop]; exact toNat_zeroExtend_imm16Of f.ir
  · next handi hori => rw [immOf_eq_signExtend handi hori]; exact toInt_signExtend_imm16Of f.ir

/-- Settles O8: a branch adds back the distance that the offset is the quotient of, and a jump puts the label's own
region before the field. -/
theorem assembledTargetsReachLabels : Obligations.AssembledTargetsReachLabels := by
  refine ⟨fun here label offset hoffset => ?_, fun here label haligned hregion => ?_⟩
  · rw [branchTarget_eq, signExtended_mul_four (asmBranch_eq_some hoffset)]
    exact add_sub_cancel (here + 4) label
  · apply BitVec.eq_of_toNat_eq
    rw [toNat_jumpTarget, toNat_asmTarget, ← hregion]
    omega

/-- Settles O6: the row of `sll` on register 0, whose write is discarded, and whose sources are never a hazard. -/
theorem allZeroWordIsNoop : Obligations.AllZeroWordIsNoop := by
  have hsrcs : srcsOf 0#32 = [0#5, 0#5] := by decide
  refine ⟨by decide, rfl, hsrcs, rfl, fun s => ⟨exec_nop s, ?_⟩⟩
  have hhazard : s.hazard 0#32 = false := s.hazard_of_srcs_zero (by simp [hsrcs])
  exact ⟨hhazard, fun f hf hzero => ⟨s.issue f, stageId_of_no_hazard hf (by rw [hzero, hhazard])⟩⟩

/-- Settles O7: each word is evaluated by the decoder. -/
theorem writtenWordsDecode : Obligations.WrittenWordsDecode := by
  unfold Obligations.WrittenWordsDecode
  decide

end

/-! ### Fetch's range (20_memory.md R67) -/

namespace Sys2Proof

/-- Where Fetch may read is inside the memory (00_scope.md R7: `FETCH_END <= MEM_SIZE`). -/
theorem Params.fetchEnd_le_memSize {p : Params} (h : p.wellFormed = true) : p.fetchEnd ≤ p.memSize := by
  simp only [Params.wellFormed, Params.fetchEndOk, Bool.and_eq_true, decide_eq_true_eq] at h
  obtain ⟨-, -, hend⟩ := h
  exact hend

end Sys2Proof

/-! ### What halts a tick (40_pipeline_stages.md R125, R129, R137)

`State.haltFault` reads off the start of a tick the fault that the tick answers with, if it halts. It is tied to the
model by `tick_haltFault`, and so to `step` by `step_cycle_fault_iff` and `step_cycle_completes_iff`.
-/

namespace Sys2Proof.Machine

theorem State.ticking_iff (s : State) :
    s.ticking = true ↔ s.params.wellFormed = true ∧ s.halt = none ∧ s.level = .cycle := by
  simp [State.ticking, State.running, and_assoc]

/-- Fetch will not halt in this tick: it is flushed or held, or the pc is aligned (40_pipeline_stages.md R137). -/
def State.fetchPasses (s : State) : Bool := s.flushing || s.holding || s.pcAligned

/-- The fault of the tick that starts in `s`: that of the oldest instruction in error, if there is one. -/
def State.haltFault (s : State) : Option Fault :=
  if !s.accessPasses then s.exmem.map fun m => .memAccess ⟨.MEM, s.cycle + 1, m.tPc, m.tIr⟩
  else if !s.executePasses then s.idex.map fun d => .unsupported ⟨.EX, s.cycle + 1, d.tPc, d.tIr⟩
  else if !s.fetchPasses then some (.fetchMisaligned ⟨.IF, s.cycle + 1, s.pc, 0#32⟩)
  else none

/-! ### The three checks -/

theorem State.accessPasses_of_exmem {s : State} {m : ExMem} (hm : s.exmem = some m) :
    s.accessPasses = (decide (m.memop = .none) || s.accessOk m.result) := by
  simp [State.accessPasses, hm]

theorem State.accessPasses_of_bubble {s : State} (hm : s.exmem = none) : s.accessPasses = true := by
  simp [State.accessPasses, hm]

/-- The access check fails only for a latch that holds an instruction. -/
theorem State.exmem_of_accessFails {s : State} (h : s.accessPasses = false) : ∃ m, s.exmem = some m := by
  cases hm : s.exmem with
  | none => simp [State.accessPasses_of_bubble hm] at h
  | some m => exact ⟨m, rfl⟩

theorem State.executePasses_of_instr {s : State} {d : IdEx} {i : Instr} (hd : s.idex = some d) (hop : d.op = .instr i) :
    s.executePasses = true := by
  simp [State.executePasses, hd, hop]

theorem State.executePasses_of_bubble {s : State} (hd : s.idex = none) : s.executePasses = true := by
  simp [State.executePasses, hd]

/-- Execute halts exactly on an unsupported encoding. -/
theorem State.executePasses_eq_false_iff (s : State) :
    s.executePasses = false ↔ ∃ d w, s.idex = some d ∧ d.op = .illegal w := by
  cases hd : s.idex with
  | none => simp [State.executePasses_of_bubble hd]
  | some d => cases hop : d.op <;> simp [State.executePasses, hd, hop]

theorem State.fetchPasses_eq_false_iff (s : State) :
    s.fetchPasses = false ↔ s.flushing = false ∧ s.holding = false ∧ s.pcAligned = false := by
  simp [State.fetchPasses, and_assoc]

/-- No fault is foretold exactly if the three checks pass. -/
theorem State.haltFault_eq_none_iff (s : State) :
    s.haltFault = none ↔ s.accessPasses = true ∧ s.executePasses = true ∧ s.fetchPasses = true := by
  unfold State.haltFault
  cases haccess : s.accessPasses with
  | false =>
    obtain ⟨m, hm⟩ := State.exmem_of_accessFails haccess
    simp [hm]
  | true =>
    cases hexecute : s.executePasses with
    | false =>
      obtain ⟨d, w, hd, -⟩ := s.executePasses_eq_false_iff.1 hexecute
      simp [hd]
    | true => cases s.fetchPasses <;> simp

/-- The three ways in which a tick can halt, the stages in their order. -/
theorem State.haltFault_cases {s : State} {g : Fault} (h : s.haltFault = some g) :
    (∃ m, s.exmem = some m ∧ s.accessPasses = false ∧ g = .memAccess ⟨.MEM, s.cycle + 1, m.tPc, m.tIr⟩) ∨
    (∃ d w, s.idex = some d ∧ d.op = .illegal w ∧ g = .unsupported ⟨.EX, s.cycle + 1, d.tPc, d.tIr⟩) ∨
    (s.fetchPasses = false ∧ g = .fetchMisaligned ⟨.IF, s.cycle + 1, s.pc, 0#32⟩) := by
  unfold State.haltFault at h
  cases haccess : s.accessPasses with
  | false =>
    obtain ⟨m, hm⟩ := State.exmem_of_accessFails haccess
    refine .inl ⟨m, hm, rfl, ?_⟩
    simpa [haccess, hm] using h.symm
  | true =>
    cases hexecute : s.executePasses with
    | false =>
      obtain ⟨d, w, hd, hop⟩ := s.executePasses_eq_false_iff.1 hexecute
      refine .inr (.inl ⟨d, w, hd, hop, ?_⟩)
      simpa [haccess, hexecute, hd] using h.symm
    | true =>
      cases hfetch : s.fetchPasses with
      | false => exact .inr (.inr ⟨rfl, by simpa [haccess, hexecute, hfetch] using h.symm⟩)
      | true => simp [haccess, hexecute, hfetch] at h

/-- Where a stage goes on, its check has passed: Memory access. -/
theorem accessPasses_of_stageMem_go {s t : State} {l : Option MemWb} (h : stageMem s = .go t l) :
    s.accessPasses = true := by
  rcases stageMem_go h with ⟨hm, -⟩ | ⟨m, hm, ⟨hop, -⟩ | ⟨-, hok, -⟩ | ⟨-, hok, -⟩⟩
  · exact State.accessPasses_of_bubble hm
  · simp [State.accessPasses_of_exmem hm, hop]
  · simp [State.accessPasses_of_exmem hm, hok]
  · simp [State.accessPasses_of_exmem hm, hok]

/-- Where a stage goes on, its check has passed: Execute. -/
theorem executePasses_of_stageEx_go {s t : State} {e : Option ExMem} {red : Bool} (h : stageEx s = .go t (e, red)) :
    s.executePasses = true := by
  rcases stageEx_go h with ⟨hd, -⟩ | ⟨d, i, hd, hop, -⟩
  · exact State.executePasses_of_bubble hd
  · exact State.executePasses_of_instr hd hop

/-- Where a stage goes on, its check has passed: Fetch under the signals of its own latches. -/
theorem fetchPasses_of_stageIf_go {s t : State} {f : Option IfId} (h : stageIf s s.flushing s.holding = .go t f) :
    s.fetchPasses = true := by
  rcases stageIf_go h with ⟨hred, -⟩ | ⟨-, hhold, -⟩ | ⟨-, -, haligned, -⟩ | ⟨-, -, haligned, -⟩
  · simp [State.fetchPasses, hred]
  · simp [State.fetchPasses, hhold]
  · simp [State.fetchPasses, haligned]
  · simp [State.fetchPasses, haligned]

/-! ### The stages in the middle of a tick -/

section Congr

variable {s t : State}

theorem State.accessPasses_congr (hexmem : t.exmem = s.exmem) (hparams : t.params = s.params) :
    t.accessPasses = s.accessPasses := by
  simp [State.accessPasses, State.accessOk, hexmem, hparams]

theorem State.executePasses_congr (hidex : t.idex = s.idex) : t.executePasses = s.executePasses := by
  simp [State.executePasses, hidex]

end Congr

theorem State.takenTarget_of_not_flushing {s : State} (h : s.flushing = false) : s.takenTarget = none := by
  simpa [State.flushing_eq] using h

/-- The state in which Decode and Fetch are evaluated, whole. -/
theorem afterExecute_eq {s s2 s3 : State} {l : Option MemWb} {e : Option ExMem} {red : Bool}
    (hmem : stageMem (stageWb s) = .go s2 l) (hex : stageEx s2 = .go s3 (e, red)) :
    s3 = { stageWb s with mem := s2.mem, pc := s.takenTarget.getD s.pc } := by
  obtain ⟨m, rfl⟩ := stageMem_go_eq hmem
  obtain ⟨-, rfl⟩ := stageEx_go_eq hex
  simp [State.setPc, State.takenTarget]

/-- Fetch changes the pc alone. -/
theorem stageIf_go_eq {s t : State} {red hold : Bool} {f : Option IfId} (h : stageIf s red hold = .go t f) :
    ∃ a, t = s.setPc a := by
  rcases stageIf_go h with ⟨-, rfl, -⟩ | ⟨-, -, rfl, -⟩ | ⟨-, -, -, -, rfl, -⟩ | ⟨-, -, -, -, rfl, -⟩ <;> exact ⟨_, rfl⟩

/-! ### The halt of a tick -/

/-- A halt in Memory access is the fault that the start of the tick foretells. -/
theorem haltFault_of_stageMem_halted {s h : State} (e : stageMem (stageWb s) = .halted h) :
    h.halt.map Fault.ofRecord = s.haltFault := by
  obtain ⟨m, hm, hop, hok, rfl⟩ := stageMem_halted e
  rw [stageWb_exmem] at hm
  rw [State.accessOk_congr (stageWb_params s)] at hok
  have hfails : s.accessPasses = false := by simp [State.accessPasses_of_exmem hm, hop, hok]
  simp [State.haltFault, hfails, hm, State.haltRecord, Fault.ofRecord]

/-- A halt in Execute is the fault that the start of the tick foretells. -/
theorem haltFault_of_stageEx_halted {s s2 h : State} {l : Option MemWb} (hmem : stageMem (stageWb s) = .go s2 l)
    (e : stageEx s2 = .halted h) : h.halt.map Fault.ofRecord = s.haltFault := by
  have haccess : s.accessPasses = true :=
    (State.accessPasses_congr (by simp) (by simp)).symm.trans (accessPasses_of_stageMem_go hmem)
  obtain ⟨m, rfl⟩ := stageMem_go_eq hmem
  obtain ⟨d, w, hd, hop, rfl⟩ := stageEx_halted e
  replace hd : s.idex = some d := (stageWb_idex s).symm.trans hd
  have hfails : s.executePasses = false := s.executePasses_eq_false_iff.2 ⟨d, w, hd, hop⟩
  simp [State.haltFault, haccess, hfails, hd, State.haltRecord, Fault.ofRecord]

section AfterExecute

variable {s s2 s3 : State} {l : Option MemWb} {e : Option ExMem} {red : Bool}

/-- Once Memory access and Execute have gone on, their checks have passed. -/
theorem passes_of_afterExecute (hmem : stageMem (stageWb s) = .go s2 l) (hex : stageEx s2 = .go s3 (e, red)) :
    s.accessPasses = true ∧ s.executePasses = true := by
  refine ⟨(State.accessPasses_congr (by simp) (by simp)).symm.trans (accessPasses_of_stageMem_go hmem), ?_⟩
  obtain ⟨m, rfl⟩ := stageMem_go_eq hmem
  exact (State.executePasses_congr (by simp)).symm.trans (executePasses_of_stageEx_go hex)

/-- The signals of Decode and Fetch, and Fetch's check, are those of the start of the tick. -/
theorem signals_afterExecute (hmem : stageMem (stageWb s) = .go s2 l) (hex : stageEx s2 = .go s3 (e, red)) :
    red = s.flushing ∧ s3.flushing = s.flushing ∧ (stageId s3 red).2 = s.holding ∧ s3.holding = s.holding ∧
      s3.fetchPasses = s.fetchPasses := by
  obtain ⟨hred, hpc, hparams, hifid, hidex, hexmem⟩ := afterExecute_frame hmem hex
  have hflush : s3.flushing = s.flushing := State.flushing_congr hidex
  have hhold : s3.holding = s.holding := State.holding_congr hifid hidex hexmem
  refine ⟨hred, hflush, ?_, hhold, ?_⟩
  · rw [hred, ← hflush, stageId_hold, hhold]
  · cases hflushing : s.flushing with
    | true => simp [State.fetchPasses, hflush, hflushing]
    | false =>
      rw [State.takenTarget_of_not_flushing hflushing, Option.getD_none] at hpc
      simp [State.fetchPasses, State.pcAligned, hflush, hhold, hpc]

/-- A halt in Fetch is the fault that the start of the tick foretells. -/
theorem haltFault_of_stageIf_halted {h : State} (hmem : stageMem (stageWb s) = .go s2 l)
    (hex : stageEx s2 = .go s3 (e, red)) (hif : stageIf s3 red (stageId s3 red).2 = .halted h) :
    h.halt.map Fault.ofRecord = s.haltFault := by
  obtain ⟨haccess, hexecute⟩ := passes_of_afterExecute hmem hex
  obtain ⟨hred, hflush, hhold, hhold3, hfetch⟩ := signals_afterExecute hmem hex
  obtain ⟨hnoflush, hnohold, haligned, rfl⟩ := stageIf_halted hif
  have hflushing : s.flushing = false := hred ▸ hnoflush
  have hfails : s.fetchPasses = false := by
    rw [← hfetch, State.fetchPasses_eq_false_iff]
    exact ⟨hflush.trans hflushing, hhold3.trans (hhold ▸ hnohold), haligned⟩
  rw [afterExecute_eq hmem hex]
  simp [State.haltFault, haccess, hexecute, hfails, State.takenTarget_of_not_flushing hflushing, State.haltRecord,
    Fault.ofRecord]

/-- Where every stage goes on, no fault is foretold. -/
theorem haltFault_of_stageIf_go {s4 : State} {f : Option IfId} (hmem : stageMem (stageWb s) = .go s2 l)
    (hex : stageEx s2 = .go s3 (e, red)) (hif : stageIf s3 red (stageId s3 red).2 = .go s4 f) :
    s4.halt = s.halt ∧ s.haltFault = none := by
  obtain ⟨haccess, hexecute⟩ := passes_of_afterExecute hmem hex
  obtain ⟨hred, hflush, hhold, hhold3, hfetch⟩ := signals_afterExecute hmem hex
  rw [hhold, hred, ← hflush, ← hhold3] at hif
  have hpasses : s.fetchPasses = true := hfetch ▸ fetchPasses_of_stageIf_go hif
  obtain ⟨a, rfl⟩ := stageIf_go_eq hif
  refine ⟨?_, s.haltFault_eq_none_iff.2 ⟨haccess, hexecute, hpasses⟩⟩
  rw [afterExecute_eq hmem hex]
  exact stageWb_halt s

end AfterExecute

/-- A tick halts exactly with the fault that its start foretells. -/
theorem tick_haltFault {s : State} (hs : s.halt = none) : (tick s).halt.map Fault.ofRecord = s.haltFault := by
  unfold tick
  simp only [hs, Option.isSome_none, Bool.false_eq_true, if_false]
  split
  · next h hmem => exact haltFault_of_stageMem_halted hmem
  · next s2 l hmem =>
    split
    · next h hex => exact haltFault_of_stageEx_halted hmem hex
    · next s3 e red hex =>
      split
      · next h hif => exact haltFault_of_stageIf_halted hmem hex hif
      · next s4 f hif =>
        obtain ⟨hhalt, hnone⟩ := haltFault_of_stageIf_go hmem hex hif
        simp [hhalt, hs, hnone]

/-! ### The outcome of a step of the cycle-level machine -/

/-- What one step of a running cycle-level machine answers with. -/
theorem step_ticking {s : State} (hs : s.ticking = true) : step s = haltOutcome (tick s) := by
  obtain ⟨hwf, hhalt, hlevel⟩ := s.ticking_iff.1 hs
  simp [step, hwf, hhalt, hlevel, stepCycle]

/-- A step halts exactly with the fault that the start of its tick foretells. -/
theorem step_cycle_fault_iff {s : State} (hs : s.ticking = true) (g : Fault) :
    step s = .fault g ↔ s.haltFault = some g := by
  rw [step_ticking hs, ← tick_haltFault (s.ticking_iff.1 hs).2.1, haltOutcome]
  cases (tick s).halt <;> simp

/-- A step completes exactly if no fault is foretold. -/
theorem step_cycle_completes_iff {s : State} (hs : s.ticking = true) :
    (∃ t, step s = .next t) ↔ s.haltFault = none := by
  rw [step_ticking hs, ← tick_haltFault (s.ticking_iff.1 hs).2.1, haltOutcome]
  cases (tick s).halt <;> simp

/-- A tick in which the three checks pass completes. -/
theorem step_cycle_completes {s : State} (hs : s.ticking = true) (haccess : s.accessPasses = true)
    (hexecute : s.executePasses = true) (hfetch : s.fetchPasses = true) : ∃ t, step s = .next t :=
  (step_cycle_completes_iff hs).2 (s.haltFault_eq_none_iff.2 ⟨haccess, hexecute, hfetch⟩)

/-! ### What a completed tick leaves -/

section Completed

variable {s t : State}

/-- A completed tick leaves a state in which the next one ticks. -/
theorem step_cycle_ticking (hs : s.ticking = true) (h : step s = .next t) : t.ticking = true := by
  obtain ⟨hwf, -, hlevel⟩ := s.ticking_iff.1 hs
  obtain ⟨ht, hhalt⟩ := step_cycle_next hs h
  refine t.ticking_iff.2 ⟨?_, ht ▸ hhalt, ?_⟩
  · rwa [step_keeps (fun u => u.params = s.params) (fun hupdate => hupdate.params_eq.trans) h rfl]
  · exact step_keeps (fun u => u.level = .cycle) (fun hupdate => hupdate.level_eq.trans) h hlevel

/-- The registers after a completed tick are those that Write-back leaves: no later stage writes one. -/
theorem step_cycle_readReg (hs : s.ticking = true) (h : step s = .next t) (r : RegIx) :
    t.readReg r = (stageWb s).readReg r := by
  obtain ⟨s2, l, s3, e, red, s4, f, hmem, hex, hif, rfl⟩ := step_cycle_cases hs h
  obtain ⟨a, rfl⟩ := stageIf_go_eq hif
  rw [afterExecute_eq hmem hex]
  rfl

/-- The memory and the MEM/WB latch after a completed tick are those that Memory access leaves: no other stage writes
the memory. -/
theorem step_cycle_mem (hs : s.ticking = true) (h : step s = .next t) :
    ∃ s2, stageMem (stageWb s) = .go s2 t.memwb ∧ t.mem = s2.mem := by
  obtain ⟨s2, l, s3, e, red, s4, f, hmem, hex, hif, rfl⟩ := step_cycle_cases hs h
  obtain ⟨a, rfl⟩ := stageIf_go_eq hif
  exact ⟨s2, hmem, by rw [afterExecute_eq hmem hex]; rfl⟩

/-- Every way in which memory and MEM/WB latch can stand after a completed tick. -/
theorem step_cycle_mem_cases (hs : s.ticking = true) (h : step s = .next t) :
    (s.exmem = none ∧ t.mem = s.mem ∧ t.memwb = none) ∨
    ∃ m, s.exmem = some m ∧
      ((m.memop = .none ∧ t.mem = s.mem ∧ t.memwb = some ⟨m.result, m.dest, m.tPc, m.tIr⟩) ∨
       (m.memop = .load ∧ s.accessOk m.result = true ∧ t.mem = s.mem ∧
          t.memwb = some ⟨s.loadWord m.result, m.dest, m.tPc, m.tIr⟩) ∨
       (m.memop = .store ∧ s.accessOk m.result = true ∧ t.mem = writeWord s.mem m.result.toNat m.store ∧
          t.memwb = some ⟨m.result, 0#5, m.tPc, m.tIr⟩)) := by
  obtain ⟨s2, hmem, ht⟩ := step_cycle_mem hs h
  have haccess (m : ExMem) : (stageWb s).accessOk m.result = s.accessOk m.result :=
    State.accessOk_congr (stageWb_params s) m.result
  have hcases := stageMem_go hmem
  simp only [stageWb_exmem, haccess, State.loadWord, stageWb_mem] at hcases
  rcases hcases with ⟨hm, rfl, hl⟩ | ⟨m, hm, ⟨hop, rfl, hl⟩ | ⟨hop, hok, rfl, hl⟩ | ⟨hop, hok, rfl, hl⟩⟩
  · exact .inl ⟨hm, by simpa using ht, hl⟩
  · exact .inr ⟨m, hm, .inl ⟨hop, by simpa using ht, hl⟩⟩
  · exact .inr ⟨m, hm, .inr (.inl ⟨hop, hok, by simpa using ht, hl⟩)⟩
  · exact .inr ⟨m, hm, .inr (.inr ⟨hop, hok, by simpa using ht, hl⟩)⟩

/-- The EX/MEM latch after a completed tick: the row of the instruction in Execute. -/
theorem step_cycle_exmem (hs : s.ticking = true) (h : step s = .next t) :
    (s.idex = none ∧ t.exmem = none) ∨
    ∃ d i, s.idex = some d ∧ d.op = .instr i ∧ t.exmem = some (d.toExMem (executeInstr i d)) := by
  obtain ⟨s2, l, s3, e, red, s4, f, hmem, hex, hif, rfl⟩ := step_cycle_cases hs h
  obtain ⟨m, rfl⟩ := stageMem_go_eq hmem
  have hcases := stageEx_go hex
  simp only [stageWb_idex] at hcases
  rcases hcases with ⟨hd, -, he, -⟩ | ⟨d, i, hd, hop, he, -⟩
  · exact .inl ⟨hd, he⟩
  · exact .inr ⟨d, i, hd, hop, he⟩

/-- What Decode issues depends on the registers alone. -/
theorem State.issue_congr (hregs : ∀ r, t.readReg r = s.readReg r) : t.issue = s.issue := by
  funext f
  simp [State.issue, hregs]

/-- Decode's latch under the signals of its own state: a bubble on a flush or a hold, else what it issues. -/
theorem stageId_idex (s : State) :
    (stageId s s.flushing).1 = if s.flushing || s.holding then none else s.ifid.map s.issue := by
  unfold State.holding State.stallRequest stageId
  cases s.ifid with
  | none => simp
  | some f => cases s.flushing <;> cases hhazard : s.hazard f.ir <;> simp [hhazard]

/-- The ID/EX latch after a completed tick. The registers are those that the tick leaves (R131). -/
theorem step_cycle_idex (hs : s.ticking = true) (h : step s = .next t) :
    t.idex = if s.flushing || s.holding then none else s.ifid.map t.issue := by
  obtain ⟨s2, l, s3, e, red, s4, f, hmem, hex, hif, rfl⟩ := step_cycle_cases hs h
  obtain ⟨-, -, -, hifid, -⟩ := afterExecute_frame hmem hex
  obtain ⟨hred, hflush, -, hhold, -⟩ := signals_afterExecute hmem hex
  obtain ⟨a, rfl⟩ := stageIf_go_eq hif
  have hissue : (State.commit (s3.setPc a) f (stageId s3 red).1 e l).issue = s3.issue :=
    State.issue_congr fun r => rfl
  rw [hissue, State.commit_idex, hred, ← hflush, stageId_idex, hhold, hifid]

/-- A flush beats a hold (45_hazard_unit.md R227). -/
theorem State.holding_of_flushing (hflush : s.flushing = true) : s.holding = false := by
  unfold State.holding State.stallRequest
  cases s.ifid <;> simp [hflush]

/-- The IF/ID latch after a completed tick that does not fetch: kept in a hold, else a bubble (R134, R135, R138). -/
theorem step_cycle_ifid_of_not_fetching (hs : s.ticking = true) (hfetching : s.fetching = false)
    (h : step s = .next t) : t.ifid = if s.holding then s.ifid else none := by
  obtain ⟨s2, l, s3, e, red, s4, f, hmem, hex, hif, rfl⟩ := step_cycle_cases hs h
  obtain ⟨-, hpc, hparams, hifid, -⟩ := afterExecute_frame hmem hex
  obtain ⟨hred, -, hhold, -, -⟩ := signals_afterExecute hmem hex
  rw [hhold, hred] at hif
  rw [State.commit_ifid]
  rcases stageIf_go hif with
    ⟨hflush, -, rfl⟩ | ⟨-, hheld, -, rfl⟩ | ⟨-, hheld, -, -, -, rfl⟩ | ⟨hflush, hheld, haligned, hrange, -, -⟩
  · simp [State.holding_of_flushing hflush]
  · simp [hheld, hifid]
  · simp [hheld]
  · rw [State.takenTarget_of_not_flushing hflush, Option.getD_none] at hpc
    have hfetches : s.fetching = true := by
      rw [State.pcAligned, hpc] at haligned
      rw [State.inFetchRange, hpc, hparams] at hrange
      exact s.fetching_iff.2 ⟨hflush, hheld, haligned, hrange⟩
    simp [hfetches] at hfetching

end Completed

/-! ### The tick of a taken transfer and the one after it (45_hazard_unit.md R226) -/

/-- A transfer accesses no memory. -/
theorem executeInstr_memop_of_redirect {i : Instr} {d : IdEx} (h : (executeInstr i d).redirect ≠ none) :
    (executeInstr i d).memop = .none := by
  cases i with
  | lw | sw => exact absurd rfl h
  | _ => rfl

/-- The operation of a taken transfer is an instruction. -/
theorem instr_of_redirectOf {d : IdEx} {target : Word} (h : redirectOf d = some target) : ∃ i, d.op = .instr i := by
  cases hop : d.op with
  | instr i => exact ⟨i, rfl⟩
  | illegal w => simp [redirectOf, hop] at h

/-- After a completed tick that starts with a taken transfer in Execute, Fetch is at the target, Decode and Execute hold
bubbles, and Memory access holds the transfer, which does no access. -/
theorem step_cycle_taken {s t : State} {d : IdEx} {target : Word} (hs : s.ticking = true) (hd : s.idex = some d)
    (hredirect : redirectOf d = some target) (h : step s = .next t) :
    t.pc = target ∧ t.ifid = none ∧ t.idex = none ∧ ∃ m, t.exmem = some m ∧ m.memop = .none := by
  have htarget : s.takenTarget = some target := by rw [State.takenTarget, hd]; exact hredirect
  have hflush : s.flushing = true := by rw [State.flushing_eq, htarget]; rfl
  have hfetching : s.fetching = false := by simp [State.fetching, hflush]
  refine ⟨?_, ?_, ?_, ?_⟩
  · simpa [hfetching, htarget] using step_cycle_pc hs h
  · simpa [State.holding_of_flushing hflush] using step_cycle_ifid_of_not_fetching hs hfetching h
  · simpa [hflush] using step_cycle_idex hs h
  · rcases step_cycle_exmem hs h with ⟨hnone, -⟩ | ⟨d', i, hd', hop, he⟩
    · simp [hd] at hnone
    · obtain rfl : d = d' := Option.some.inj (hd.symm.trans hd')
      rw [redirectOf_instr hop] at hredirect
      exact ⟨_, he, executeInstr_memop_of_redirect (by simp [hredirect])⟩

/-- From a state with bubbles in Decode and Execute and no access in Memory access, a pc that is aligned and in range is
fetched from, and Decode and Execute pass the bubbles on. -/
theorem step_cycle_after_flush {s : State} {m : ExMem} (hs : s.ticking = true) (hifid : s.ifid = none)
    (hidex : s.idex = none) (hexmem : s.exmem = some m) (hop : m.memop = .none) (haligned : s.pcAligned = true)
    (hrange : s.inFetchRange = true) :
    ∃ t, step s = .next t ∧ t.pc = s.npc ∧ t.idex = none ∧ t.exmem = none ∧
      t.ifid = some ⟨s.loadWord s.pc, s.npc, s.pc, s.loadWord s.pc⟩ := by
  have hfetching : s.fetching = true := by
    simp [State.fetching, State.flushing, State.holding, State.stallRequest, hifid, hidex, haligned, hrange]
  obtain ⟨t, ht⟩ := step_cycle_completes hs (by simp [State.accessPasses_of_exmem hexmem, hop])
    (State.executePasses_of_bubble hidex) (by simp [State.fetchPasses, haligned])
  have hmem : t.mem = s.mem := by
    rcases step_cycle_mem_cases hs ht with ⟨-, hmem, -⟩ | ⟨m', hm', ⟨-, hmem, -⟩ | ⟨hop', -⟩ | ⟨hop', -⟩⟩
    · exact hmem
    · exact hmem
    all_goals
      obtain rfl : m = m' := Option.some.inj (hexmem.symm.trans hm')
      simp [hop] at hop'
  refine ⟨t, ht, by simpa [hfetching] using step_cycle_pc hs ht, by simpa [hifid] using step_cycle_idex hs ht, ?_, ?_⟩
  · rcases step_cycle_exmem hs ht with ⟨-, he⟩ | ⟨d, i, hd, -⟩
    · exact he
    · simp [hidex] at hd
  · rw [step_cycle_fetched hs hfetching ht, State.loadWord, State.loadWord, hmem]

end Sys2Proof.Machine

/-! ### The obligations of 40_pipeline_stages.md -/

section

open Sys2Proof Sys2Proof.Machine

/-- Settles O29: the registers are those that Write-back leaves, and no fault is raised there. -/
theorem writeBackIsTheOnlyRegisterWriter : Obligations.WriteBackIsTheOnlyRegisterWriter := by
  refine ⟨fun s t hs h => ?_, fun s f hs h => ?_⟩
  · have hregs (r : RegIx) := (step_cycle_readReg hs h r).trans (stageWb_readReg s r)
    cases hl : s.memwb with
    | none => simpa [sameRegs, hl] using hregs
    | some l =>
      simp only [hl] at hregs
      exact ⟨(hregs l.dest).trans (if_pos rfl), fun r hr => (hregs r).trans (if_neg hr)⟩
  · rcases State.haltFault_cases ((step_cycle_fault_iff hs f).1 h) with
      ⟨m, -, -, rfl⟩ | ⟨d, w, -, -, rfl⟩ | ⟨-, rfl⟩ <;> simp [Fault.diagnostic]

/-- Settles O30: a completed tick's memory and MEM/WB latch, in the cases of Memory access. -/
theorem memoryAccessStage : Obligations.MemoryAccessStage := by
  intro s t hs h
  have hsame (hmem : t.mem = s.mem) : sameMem s t := fun a => congrArg (readByte · a) hmem
  rcases step_cycle_mem_cases hs h with
    ⟨he, hmem, hl⟩ | ⟨m, he, ⟨hop, hmem, hl⟩ | ⟨hop, hok, hmem, hl⟩ | ⟨hop, hok, hmem, hl⟩⟩
  · rw [he]
    exact ⟨hsame hmem, hl⟩
  · simp only [he, hop]
    exact ⟨hsame hmem, hl⟩
  · simp only [he, hop]
    exact ⟨hok, hsame hmem, hl⟩
  · simp only [he, hop]
    refine ⟨hok, fun a ha => ?_, hl, fun hwf => ?_⟩
    · rw [hmem, readByte_writeWord_other s.mem m.store ha]
    · rw [hmem, readWord_writeWord hwf]

/-- Settles O31: the check of Memory access comes first, and a fault with its cause comes from a check that failed. -/
theorem badAccessHalts : Obligations.BadAccessHalts := by
  intro s m hs he hop
  have hpasses : s.accessPasses = s.accessOk m.result := by simp [State.accessPasses_of_exmem he, hop]
  have hok := s.accessOk_iff m.result
  split
  · next hbad =>
    have hfails : s.accessPasses = false := by
      rw [hpasses, Bool.eq_false_iff, ne_eq, hok]
      omega
    rw [step_cycle_fault_iff hs]
    simp [State.haltFault, hfails, he]
  · next hgood =>
    intro g hstep
    rcases State.haltFault_cases ((step_cycle_fault_iff hs _).1 hstep) with
      ⟨_, -, hfails, -⟩ | ⟨_, _, -, -, hcause⟩ | ⟨-, hcause⟩
    · rw [hpasses, Bool.eq_false_iff, ne_eq, hok] at hfails
      omega
    · cases hcause
    · cases hcause

/-- Settles O32: the check of Execute comes next, and no other stage raises its cause. -/
theorem unsupportedEncodingHalts : Obligations.UnsupportedEncodingHalts := by
  refine ⟨fun s d w hs haccess hd hop => ?_, fun s g hs h => ?_⟩
  · have hfails : s.executePasses = false := s.executePasses_eq_false_iff.2 ⟨d, w, hd, hop⟩
    rw [step_cycle_fault_iff hs]
    simp [State.haltFault, haccess, hfails, hd]
  · rcases State.haltFault_cases ((step_cycle_fault_iff hs _).1 h) with
      ⟨m, -, -, hcause⟩ | ⟨d, w, hd, hop, -⟩ | ⟨-, hcause⟩
    · cases hcause
    · exact ⟨d, w, hd, hop⟩
    · cases hcause

/-- Settles O33: the tick of the transfer empties Decode and Execute, and the next one starts from those bubbles. -/
theorem takenTransferFlushes : Obligations.TakenTransferFlushes := by
  intro s d target hs haccess hd hredirect
  obtain ⟨i, hop⟩ := instr_of_redirectOf hredirect
  have hflush : s.flushing = true := by simp [State.flushing, hd, hredirect]
  obtain ⟨t, ht⟩ := step_cycle_completes hs haccess (State.executePasses_of_instr hd hop)
    (by simp [State.fetchPasses, hflush])
  obtain ⟨hpc, hifid, hidex, m, hexmem, hmemop⟩ := step_cycle_taken hs hd hredirect ht
  refine ⟨t, ht, hpc, hifid, hidex, by simp [hexmem], fun haligned hrange => ?_⟩
  subst hpc
  have hparams : t.params = s.params := (parametersNeverChange s t ht).1
  obtain ⟨u, hu, hupc, huidex, huexmem, huifid⟩ := step_cycle_after_flush (step_cycle_ticking hs ht) hifid hidex hexmem
    hmemop (t.pcAligned_iff.2 haligned) (t.inFetchRange_iff.2 (hparams ▸ hrange))
  exact ⟨u, hu, hupc, huidex, huexmem, huifid⟩

/-- Settles O37: no flush and no hold, so Decode issues, with the registers that the tick leaves. -/
theorem issueLatchesOperands : Obligations.IssueLatchesOperands := by
  intro s f hs haccess hexecute hflush hf hhazard haligned
  have hhold : s.holding = false := by simp [State.holding, State.stallRequest, hf, hhazard]
  obtain ⟨t, ht⟩ := step_cycle_completes hs haccess hexecute (by simp [State.fetchPasses, s.pcAligned_iff.2 haligned])
  have hidex := step_cycle_idex hs ht
  simp only [hflush, hhold, hf, Bool.or_self, Bool.false_eq_true, if_false, Option.map_some] at hidex
  exact ⟨t, ht, hidex⟩

/-- Settles O38: the three cases of the pc; a pc in Fetch's range is inside the memory. -/
theorem fetchStage : Obligations.FetchStage := by
  intro s hs haccess hexecute hflush hhold
  have hcompletes (haligned : s.pc.toNat % 4 = 0) : ∃ t, step s = .next t :=
    step_cycle_completes hs haccess hexecute (by simp [State.fetchPasses, s.pcAligned_iff.2 haligned])
  refine ⟨fun hmisaligned => ?_, fun haligned hend => ?_, fun haligned hrange => ?_⟩
  · have hfails : s.fetchPasses = false := by
      simpa [State.fetchPasses, hflush, hhold, State.pcAligned] using hmisaligned
    rw [step_cycle_fault_iff hs]
    simp [State.haltFault, haccess, hexecute, hfails]
  · obtain ⟨t, ht⟩ := hcompletes haligned
    have hfetching : s.fetching = false := by simp [State.fetching, State.inFetchRange, hend]
    refine ⟨t, ht, by simpa [hhold] using step_cycle_ifid_of_not_fetching hs hfetching ht, ?_⟩
    simpa [hfetching, State.takenTarget_of_not_flushing hflush] using step_cycle_pc hs ht
  · obtain ⟨t, ht⟩ := hcompletes haligned
    have hfetching : s.fetching = true :=
      s.fetching_iff.2 ⟨hflush, hhold, s.pcAligned_iff.2 haligned, s.inFetchRange_iff.2 hrange⟩
    have hend := Params.fetchEnd_le_memSize (s.ticking_iff.1 hs).1
    exact ⟨by omega, t, ht, (step_cycle_pc hs ht).trans (if_pos hfetching), step_cycle_fetched hs hfetching ht⟩

end

/-! ### An instruction that computes one word (41_alu_register.md R169, 42_alu_immediate.md R184) -/

namespace Sys2Proof.Machine

/-- A row that is a value alone completes with that value in the destination and the pc moved on. -/
theorem State.complete_value (s : State) (i : Instr) (v store : Word) :
    s.complete i (.value v) store = .next ((s.writeReg (destOf (.instr i)) v).setPc s.npc) := rfl

/-- An instruction whose row is a value alone completes with the value of its row on the latch of its encoding, and
writes nothing but its destination and the pc. -/
theorem completesWith_of_row {i : Instr} {row : IdEx → Word} (hrow : ∀ d, executeInstr i d = .value (row d))
    (s : State) : completesWith i s (destOf (.instr i)) (row (s.issueEncoded i)) := by
  have hexec := exec_eq_complete_issueEncoded i s
  rw [hrow, State.complete_value] at hexec
  refine ⟨_, hexec, ⟨?_, fun r hr => ?_⟩, rfl, fun a => ?_, ?_⟩
  · rw [State.setPc_readReg, State.readReg_writeReg, if_pos rfl]
  · rw [State.setPc_readReg, State.readReg_writeReg_other s hr]
  · rw [State.setPc_mem, State.writeReg_mem]
  · simp [sameOther]

/-- An instruction computes its row if that row is a value alone, and `value` is the row on what Decode latches. -/
theorem computes_of_row {i : Instr} {row : IdEx → Word} {value : State → Word}
    (hrow : ∀ d, executeInstr i d = .value (row d)) (hvalue : ∀ s : State, row (s.issueEncoded i) = value s) :
    computes i (encode i) (destOf (.instr i)) row value :=
  ⟨decode_encode i, rfl, hrow, fun s => hvalue s ▸ completesWith_of_row hrow s⟩

/-- The register form of `computes_of_row`: the row is a function of the two latched operands alone, and those are the
registers that the encoding names (41_alu_register.md R170). -/
theorem computes_of_operands {i : Instr} {rs rt : RegIx} (f : Word → Word → Word) (hrs : rsOf (encode i) = rs)
    (hrt : rtOf (encode i) = rt) (hrow : ∀ d, executeInstr i d = .value (f d.a d.b)) :
    computes i (encode i) (destOf (.instr i)) (fun d => f d.a d.b) (fun s => f (s.readReg rs) (s.readReg rt)) :=
  computes_of_row hrow fun s => by rw [State.issueEncoded_eq, hrs, hrt]

/-! ### The values of 41_alu_register.md's rows, in arithmetic on integers and natural numbers -/

/-- The sum of words is the mathematical sum of the signed values, modulo `2^32` (R160). -/
theorem add_eq_ofInt (a b : Word) : a + b = BitVec.ofInt 32 (a.toInt + b.toInt) := by
  rw [BitVec.ofInt_add, BitVec.ofInt_toInt, BitVec.ofInt_toInt]

/-- The difference of words is the mathematical difference of the signed values, modulo `2^32` (R161). -/
theorem sub_eq_ofInt (a b : Word) : a - b = BitVec.ofInt 32 (a.toInt - b.toInt) := by
  rw [BitVec.sub_eq_add_neg, Int.sub_eq_add_neg, BitVec.ofInt_add, BitVec.ofInt_neg, BitVec.ofInt_toInt,
    BitVec.ofInt_toInt]

/-- The word of a signed comparison (R165). -/
theorem truthWord_lessSigned (a b : Word) : truthWord (lessSigned a b) = if a.toInt < b.toInt then 1 else 0 := by
  simp only [truthWord, lessSigned, decide_eq_true_eq]
  rfl

/-- A shift to the left is a product with a power of two, modulo `2^32` (R166). -/
theorem shiftLeft_eq_ofNat_mul (v : Word) (shamt : Shamt) :
    shiftLeft v shamt = BitVec.ofNat 32 (v.toNat * 2 ^ shamt.toNat) := by
  apply BitVec.eq_of_toNat_eq
  rw [shiftLeft, BitVec.toNat_shiftLeft, Nat.shiftLeft_eq, BitVec.toNat_ofNat]

/-- A logical shift to the right is a quotient of the unsigned value by a power of two (R167). -/
theorem shiftRightLogical_eq_ofNat_div (v : Word) (shamt : Shamt) :
    shiftRightLogical v shamt = BitVec.ofNat 32 (v.toNat / 2 ^ shamt.toNat) := by
  have hlt : v.toNat / 2 ^ shamt.toNat < 2 ^ 32 := (Nat.div_le_self _ _).trans_lt v.isLt
  apply BitVec.eq_of_toNat_eq
  rw [shiftRightLogical, BitVec.toNat_ushiftRight, Nat.shiftRight_eq_div_pow, BitVec.toNat_ofNat, Nat.mod_eq_of_lt hlt]

/-- An arithmetic shift to the right is the floor of the signed value's quotient by a power of two (R168): division of
integers by a positive number rounds down. -/
theorem shiftRightArith_eq_ofInt_div (v : Word) (shamt : Shamt) :
    shiftRightArith v shamt = BitVec.ofInt 32 (v.toInt / 2 ^ shamt.toNat) := by
  rw [shiftRightArith, BitVec.sshiftRight_eq, Int.shiftRight_eq_div_pow, Nat.cast_pow, Nat.cast_ofNat]

/-! ### Execute's latch, from the ID/EX latch alone (41_alu_register.md R170) -/

section Completed

variable {s t : State}

/-- A completed tick hands a bubble in Execute on. -/
theorem step_cycle_exmem_of_bubble (hs : s.ticking = true) (hd : s.idex = none) (h : step s = .next t) :
    t.exmem = none := by
  rcases step_cycle_exmem hs h with ⟨-, he⟩ | ⟨d, i, hd', -, -⟩
  · exact he
  · simp [hd] at hd'

/-- A completed tick hands on the row of the instruction in Execute. -/
theorem step_cycle_exmem_of_instr {d : IdEx} {i : Instr} (hs : s.ticking = true) (hd : s.idex = some d)
    (hop : d.op = .instr i) (h : step s = .next t) : t.exmem = some (d.toExMem (executeInstr i d)) := by
  rcases step_cycle_exmem hs h with ⟨hd', -⟩ | ⟨d', i', hd', hop', he⟩
  · simp [hd] at hd'
  · obtain rfl : d = d' := Option.some.inj (hd.symm.trans hd')
    obtain rfl : i = i' := Op.instr.inj (hop.symm.trans hop')
    exact he

end Completed

end Sys2Proof.Machine

/-! ### The obligations of 41_alu_register.md -/

section

open Sys2Proof Sys2Proof.Machine

/-- Settles O13: the operands are the registers the encoding names, and the rows are the sum and the difference. -/
theorem addAndSubtract : Obligations.AddAndSubtract := fun rs rt rd =>
  ⟨computes_of_operands (i := .add rs rt rd) (fun a b => BitVec.ofInt 32 (a.toInt + b.toInt)) (rsOf_encodeR ..)
      (rtOf_encodeR ..) fun d => congrArg ExOut.value (add_eq_ofInt d.a d.b),
    computes_of_operands (i := .sub rs rt rd) (fun a b => BitVec.ofInt 32 (a.toInt - b.toInt)) (rsOf_encodeR ..)
      (rtOf_encodeR ..) fun d => congrArg ExOut.value (sub_eq_ofInt d.a d.b)⟩

/-- Settles O14: the rows are the operations on words themselves. -/
theorem logicOfRegisters : Obligations.LogicOfRegisters := fun rs rt rd =>
  ⟨computes_of_operands (i := .and rs rt rd) (fun a b => a &&& b) (rsOf_encodeR ..) (rtOf_encodeR ..) fun _ => rfl,
    computes_of_operands (i := .or rs rt rd) (fun a b => a ||| b) (rsOf_encodeR ..) (rtOf_encodeR ..) fun _ => rfl,
    computes_of_operands (i := .nor rs rt rd) (fun a b => ~~~(a ||| b)) (rsOf_encodeR ..) (rtOf_encodeR ..)
      fun _ => rfl⟩

/-- Settles O15: the row is the word of the signed comparison. -/
theorem setOnLessThan : Obligations.SetOnLessThan := fun rs rt rd =>
  computes_of_operands (i := .slt rs rt rd) (fun a b => if a.toInt < b.toInt then 1 else 0) (rsOf_encodeR ..)
    (rtOf_encodeR ..) fun d => congrArg ExOut.value (truthWord_lessSigned d.a d.b)

/-- Settles O16: the shifts are a product and quotients; their rows read operand 2 alone. -/
theorem shifts : Obligations.Shifts := fun rt rd shamt =>
  ⟨computes_of_operands (i := .sll rt rd shamt) (fun _ b => BitVec.ofNat 32 (b.toNat * 2 ^ shamt.toNat))
      (rsOf_encodeR ..) (rtOf_encodeR ..) fun d => congrArg ExOut.value (shiftLeft_eq_ofNat_mul d.b shamt),
    computes_of_operands (i := .srl rt rd shamt) (fun _ b => BitVec.ofNat 32 (b.toNat / 2 ^ shamt.toNat))
      (rsOf_encodeR ..) (rtOf_encodeR ..) fun d => congrArg ExOut.value (shiftRightLogical_eq_ofNat_div d.b shamt),
    computes_of_operands (i := .sra rt rd shamt) (fun _ b => BitVec.ofInt 32 (b.toInt / 2 ^ shamt.toNat))
      (rsOf_encodeR ..) (rtOf_encodeR ..) fun d => congrArg ExOut.value (shiftRightArith_eq_ofInt_div d.b shamt)⟩

/-- Settles O40: the latch handed on is a bubble or the row of the instruction in Execute, as the ID/EX latch says. -/
theorem executeReadsOnlyItsLatch : Obligations.ExecuteReadsOnlyItsLatch := by
  refine ⟨fun s s' t t' hs hs' hsame h h' => ?_, fun s t d i hs hd hop h => step_cycle_exmem_of_instr hs hd hop h⟩
  rcases step_cycle_exmem hs h with ⟨hd, he⟩ | ⟨d, i, hd, hop, he⟩
  · rw [he, step_cycle_exmem_of_bubble hs' (hsame ▸ hd) h']
  · rw [he, step_cycle_exmem_of_instr hs' (hsame ▸ hd) hop h']

end

/-! ### The immediate that Decode latches for an encoded instruction (30_encoding.md R101) -/

namespace Sys2Proof.Machine

/-- The sign-extended immediate is the word of the field's signed value. -/
theorem signExtended_eq_ofInt (imm : Imm16) : signExtended imm = BitVec.ofInt 32 imm.toInt := rfl

/-- Sign extension keeps the signed value. -/
theorem toInt_signExtended (imm : Imm16) : (signExtended imm).toInt = imm.toInt :=
  BitVec.toInt_signExtend_of_le (by omega)

/-- The zero-extended immediate is the word of the field's unsigned value. -/
theorem zeroExtended_eq_ofNat (imm : Imm16) : zeroExtended imm = BitVec.ofNat 32 imm.toNat :=
  (BitVec.ofNat_toNat ..).symm

section

variable (opcode : BitVec 6) (rs rt : RegIx) (imm : Imm16)

/-- Every operation but `andi` and `ori` latches the encoded immediate sign-extended. -/
theorem immOf_encodeI_signed {op : Op} (handi : ∀ rs rt imm, op ≠ .instr (.andi rs rt imm))
    (hori : ∀ rs rt imm, op ≠ .instr (.ori rs rt imm)) :
    immOf op (encodeI opcode rs rt imm) = signExtended imm := by
  rw [immOf_eq_signExtend handi hori, imm16Of_encodeI, signExtended]

/-- `andi` latches the encoded immediate zero-extended. -/
theorem immOf_encodeI_andi :
    immOf (.instr (.andi rs rt imm)) (encodeI opcode rs rt imm) = zeroExtended imm := by
  rw [immOf, imm16Of_encodeI, zeroExtended]

/-- `ori` latches the encoded immediate zero-extended. -/
theorem immOf_encodeI_ori :
    immOf (.instr (.ori rs rt imm)) (encodeI opcode rs rt imm) = zeroExtended imm := by
  rw [immOf, imm16Of_encodeI, zeroExtended]

end

/-- The immediate form of `computes_of_row`: the row is a function of the first latched operand and of the latched
immediate, and those are the register and the extended field that the encoding holds (42_alu_immediate.md R184). -/
theorem computes_of_immediate {i : Instr} {rs : RegIx} {ext : Word} (f : Word → Word → Word) {value : Word → Word}
    (hrs : rsOf (encode i) = rs) (hext : immOf (.instr i) (encode i) = ext)
    (hrow : ∀ d, executeInstr i d = .value (f d.a d.imm)) (hvalue : ∀ a, f a ext = value a) :
    computes i (encode i) (destOf (.instr i)) (fun d => f d.a d.imm) (fun s => value (s.readReg rs)) :=
  computes_of_row hrow fun s => by rw [State.issueEncoded_eq, hrs, hext, hvalue]

end Sys2Proof.Machine

/-! ### The obligations of 42_alu_immediate.md -/

section

open Sys2Proof Sys2Proof.Machine

/-- Settles O17: the rows are the operations of 41_alu_register.md on the latched immediate, whose extension keeps the
signed value for `addi` and `slti` and the unsigned one for `andi` and `ori`. -/
theorem immediateArithmetic : Obligations.ImmediateArithmetic := by
  intro rs rt imm
  have haddi := immOf_encodeI_signed (op := .instr (.addi rs rt imm)) 0x08 rs rt imm nofun nofun
  have hslti := immOf_encodeI_signed (op := .instr (.slti rs rt imm)) 0x0A rs rt imm nofun nofun
  have handi := immOf_encodeI_andi 0x0C rs rt imm
  have hori := immOf_encodeI_ori 0x0D rs rt imm
  refine ⟨?_, ?_, ?_, ?_, haddi.trans (signExtended_eq_ofInt imm), hslti.trans (signExtended_eq_ofInt imm),
    handi.trans (zeroExtended_eq_ofNat imm), hori.trans (zeroExtended_eq_ofNat imm)⟩
  · exact computes_of_immediate (i := .addi rs rt imm) (fun a b => BitVec.ofInt 32 (a.toInt + b.toInt))
      (rsOf_encodeI ..) haddi (fun d => congrArg ExOut.value (add_eq_ofInt d.a d.imm))
      fun a => by rw [toInt_signExtended]
  · exact computes_of_immediate (i := .slti rs rt imm) (fun a b => if a.toInt < b.toInt then 1 else 0)
      (rsOf_encodeI ..) hslti (fun d => congrArg ExOut.value (truthWord_lessSigned d.a d.imm))
      fun a => by rw [toInt_signExtended]
  · exact computes_of_immediate (i := .andi rs rt imm) (fun a b => a &&& b) (rsOf_encodeI ..) handi (fun _ => rfl)
      fun a => by rw [zeroExtended_eq_ofNat]
  · exact computes_of_immediate (i := .ori rs rt imm) (fun a b => a ||| b) (rsOf_encodeI ..) hori (fun _ => rfl)
      fun a => by rw [zeroExtended_eq_ofNat]

end

/-! ### Load word and store word by themselves (43_load_store.md R190, R191) -/

namespace Sys2Proof.Machine

/-- What every completed instruction leaves alone. -/
theorem exec_sameOther {i : Instr} {s t : State} (h : exec i s = .next t) : sameOther s t := by
  rw [exec_eq_complete_issueEncoded] at h
  exact State.complete_frame h

/-- An instruction that completes with one register write and the pc moved on. -/
theorem completesWith_of_exec_eq {i : Instr} {s : State} {rd : RegIx} {v : Word}
    (h : exec i s = .next ((s.writeReg rd v).setPc s.npc)) : completesWith i s rd v := by
  refine ⟨_, h, ⟨?_, fun r hr => ?_⟩, rfl, fun a => ?_, exec_sameOther h⟩
  · rw [State.setPc_readReg, State.readReg_writeReg, if_pos rfl]
  · rw [State.setPc_readReg, State.readReg_writeReg_other s hr]
  · rw [State.setPc_mem, State.writeReg_mem]

/-- A word that a load reads where it was stored, in a canonical image. -/
theorem State.loadWord_storeWord {s : State} (hm : s.mem.wf = true) (addr v : Word) :
    (s.storeWord addr v).loadWord addr = v :=
  readWord_writeWord hm addr.toNat v

/-- The fault of a bad data address is `MEM_ACCESS`, with the instruction at the pc (60_exceptions.md R245). -/
theorem State.accessFault_eq (s : State) (i : Instr) :
    s.accessFault i = .memAccess ⟨.MEM, s.cycle + 1, s.pc, encode i⟩ := rfl

/-- The address that `lw` and `sw` access, with the base read from a register (R192). -/
abbrev State.dataAddress (s : State) (rs : RegIx) (imm : Imm16) : Word :=
  effectiveAddress (s.readReg rs) (signExtended imm)

@[simp] theorem State.setPc_dataAddress (s : State) (t : Word) (rs : RegIx) (imm : Imm16) :
    (s.setPc t).dataAddress rs imm = s.dataAddress rs imm := rfl

@[simp] theorem State.storeWord_dataAddress (s : State) (addr v : Word) (rs : RegIx) (imm : Imm16) :
    (s.storeWord addr v).dataAddress rs imm = s.dataAddress rs imm := rfl

/-- The effective address, in arithmetic on integers (R192). -/
theorem effectiveAddress_signExtended (base : Word) (imm : Imm16) :
    effectiveAddress base (signExtended imm) = BitVec.ofInt 32 (base.toInt + imm.toInt) := by
  rw [effectiveAddress, add_eq_ofInt, toInt_signExtended]

section

variable (rs rt : RegIx) (imm : Imm16)

theorem executeInstr_lw (d : IdEx) : executeInstr (.lw rs rt imm) d = ⟨effectiveAddress d.a d.imm, .load, none⟩ := rfl

theorem executeInstr_sw (d : IdEx) : executeInstr (.sw rs rt imm) d = ⟨effectiveAddress d.a d.imm, .store, none⟩ := rfl

variable (s : State)

/-- `lw` by itself: the access check decides between the loaded word and the halt. -/
theorem exec_lw : exec (.lw rs rt imm) s =
    if s.accessOk (s.dataAddress rs imm) then
      .next ((s.writeReg rt (s.loadWord (s.dataAddress rs imm))).setPc s.npc)
    else .fault (s.accessFault (.lw rs rt imm)) := rfl

/-- `sw` by itself: the access check decides between the stored word and the halt. -/
theorem exec_sw : exec (.sw rs rt imm) s =
    if s.accessOk (s.dataAddress rs imm) then
      .next ((s.storeWord (s.dataAddress rs imm) (s.readReg rt)).setPc s.npc)
    else .fault (s.accessFault (.sw rs rt imm)) := rfl

end

section

variable {rs rt : RegIx} {imm : Imm16} {s t : State}

/-- Everything a completed `lw` can have done. -/
theorem exec_lw_next (h : exec (.lw rs rt imm) s = .next t) :
    s.accessOk (s.dataAddress rs imm) = true ∧
      t = (s.writeReg rt (s.loadWord (s.dataAddress rs imm))).setPc s.npc := by
  rw [exec_lw] at h
  split at h
  · next hok => cases h; exact ⟨hok, rfl⟩
  · cases h

/-- Everything a completed `sw` can have done. -/
theorem exec_sw_next (h : exec (.sw rs rt imm) s = .next t) :
    s.accessOk (s.dataAddress rs imm) = true ∧
      t = (s.storeWord (s.dataAddress rs imm) (s.readReg rt)).setPc s.npc := by
  rw [exec_sw] at h
  split at h
  · next hok => cases h; exact ⟨hok, rfl⟩
  · cases h

/-- At an address that passes the access check `lw` completes with the word there. -/
theorem completesWith_lw (hok : s.accessOk (s.dataAddress rs imm) = true) :
    completesWith (.lw rs rt imm) s rt (s.loadWord (s.dataAddress rs imm)) :=
  completesWith_of_exec_eq (by rw [exec_lw, if_pos hok])

/-- A store keeps the base register and the parameters, so that a load after it reads at the same address and passes the
same check; the word there is the one just stored. -/
theorem completesWith_lw_after_store (hm : s.mem.wf = true) (hok : s.accessOk (s.dataAddress rs imm) = true)
    (rd : RegIx) (v pc : Word) :
    completesWith (.lw rs rd imm) ((s.storeWord (s.dataAddress rs imm) v).setPc pc) rd v := by
  have hsame : ((s.storeWord (s.dataAddress rs imm) v).setPc pc).accessOk (s.dataAddress rs imm) = true :=
    (State.accessOk_congr (by simp) _).trans hok
  have hload := completesWith_lw (rt := rd) hsame
  simpa [State.loadWord_storeWord hm] using hload

end

end Sys2Proof.Machine

/-! ### The obligations of 43_load_store.md -/

section

open Sys2Proof Sys2Proof.Machine

/-- Settles O12: the store completes, and the load after it completes with the word just stored. -/
theorem storeThenLoadRoundTrip : Obligations.StoreThenLoadRoundTrip := by
  intro s rs rt rd imm hm hok
  obtain ⟨u, hload, ⟨hrd, -⟩, -⟩ := completesWith_lw_after_store hm hok rd (s.readReg rt) s.npc
  exact ⟨_, u, by rw [exec_sw, if_pos hok], hload, hrd⟩

/-- Settles O18: the extension keeps the offset's signed value, the rows hold the sum, and of the registers only the
destination of a load is written. -/
theorem effectiveAddress : Obligations.EffectiveAddress := by
  refine ⟨fun base imm => ⟨effectiveAddress_signExtended base imm, imm.le_toInt, Int.le_of_lt_add_one imm.toInt_lt⟩,
    fun d rs rt imm => ⟨executeInstr_lw rs rt imm d, executeInstr_sw rs rt imm d⟩,
    fun s t rs rt imm => ⟨fun hstore => ?_, fun hload hne => ?_⟩⟩
  · obtain ⟨-, rfl⟩ := exec_sw_next hstore
    rw [State.setPc_readReg, State.storeWord_readReg]
  · obtain ⟨-, rfl⟩ := exec_lw_next hload
    rw [State.setPc_readReg, State.readReg_writeReg_other s hne.symm]

/-- Settles O19: the access check is alignment and range; it decides between the load and the halt. -/
theorem loadWord : Obligations.LoadWord := by
  intro s rs rt imm ea
  refine ⟨decode_encode (.lw rs rt imm), rfl, executeInstr_lw rs rt imm, fun hgood => ?_, fun hbad => ?_⟩
  · exact completesWith_lw ((s.accessOk_iff ea).2 hgood)
  · rw [← s.accessOk_iff ea] at hbad
    exact ⟨s.cycle + 1, by rw [exec_lw, if_neg hbad, State.accessFault_eq]⟩

/-- Settles O20: the access check decides between the halt and a word write, which sets its four bytes alone. -/
theorem storeWord : Obligations.StoreWord := by
  intro s rs rt imm ea
  refine ⟨decode_encode (.sw rs rt imm), rfl, fun d => ⟨executeInstr_sw rs rt imm d, rfl⟩, fun hgood => ?_,
    fun hbad => ?_⟩
  · have hstore : exec (.sw rs rt imm) s = .next ((s.storeWord ea (s.readReg rt)).setPc s.npc) := by
      rw [exec_sw, if_pos ((s.accessOk_iff ea).2 hgood)]
    refine ⟨_, hstore, rfl, fun r => ?_, exec_sameOther hstore, fun a ha => ?_, fun hm k hk => ?_⟩
    · rw [State.setPc_readReg, State.storeWord_readReg]
    · rw [State.setPc_mem, State.storeWord_mem, readByte_writeWord_other s.mem _ ha]
    · rw [State.setPc_mem, State.storeWord_mem, readByte_writeWord hm _ _ hk]
  · rw [← s.accessOk_iff ea] at hbad
    exact ⟨s.cycle + 1, by rw [exec_sw, if_neg hbad, State.accessFault_eq]⟩

end

/-! ### Branches and jumps by themselves (44_branch_jump.md R200 to R204) -/

namespace Sys2Proof.Machine

/-- The target of a branch, in arithmetic on integers: four times the signed offset from `npc`, modulo `2^32` (R200). -/
theorem branchTarget_signExtended (npc : Word) (imm : Imm16) :
    branchTarget npc (signExtended imm) = BitVec.ofInt 32 (npc.toInt + 4 * imm.toInt) := by
  rw [branchTarget_eq, BitVec.ofInt_add, BitVec.ofInt_toInt, Int.mul_comm, BitVec.ofInt_mul, signExtended_eq_ofInt]
  rfl

/-- The target of a jump, in arithmetic on natural numbers (R202). -/
theorem jumpTarget_eq_ofNat (npc : Word) (target : Target26) :
    jumpTarget npc target = BitVec.ofNat 32 (npc.toNat / 268435456 * 268435456 + target.toNat * 4) := by
  rw [← toNat_jumpTarget, BitVec.ofNat_toNat, BitVec.setWidth_eq]

/-- The row of a branch without a destination completes by moving the pc alone: to the target or on. -/
theorem State.complete_branch (s : State) {i : Instr} (hdest : destOf (.instr i) = 0) (taken : Bool)
    (target store : Word) :
    s.complete i (.branch taken target) store = .next (s.setPc (if taken then target else s.npc)) := by
  simp only [State.complete, ExOut.branch, hdest]
  cases taken <;> rfl

/-- A transfer whose whole effect is the new pc. -/
theorem transfersTo_of_exec_eq {i : Instr} {s : State} {target : Word} (h : exec i s = .next (s.setPc target)) :
    transfersTo i s target :=
  ⟨_, h, rfl, fun r => s.setPc_readReg target r, fun _ => by rw [State.setPc_mem], exec_sameOther h⟩

section

variable (rs rt : RegIx) (imm : Imm16) (target : Target26)

section

variable (d : IdEx)

theorem executeInstr_beq : executeInstr (.beq rs rt imm) d =
    ⟨d.npc + d.imm * 4#32, .none, if d.a = d.b then some (d.npc + d.imm * 4#32) else none⟩ := by
  simp [executeInstr, executeBeq, ExOut.branch, branchTarget_eq]

theorem executeInstr_bne : executeInstr (.bne rs rt imm) d =
    ⟨d.npc + d.imm * 4#32, .none, if d.a ≠ d.b then some (d.npc + d.imm * 4#32) else none⟩ := by
  simp [executeInstr, executeBne, ExOut.branch, branchTarget_eq]

theorem executeInstr_j :
    executeInstr (.j target) d = ⟨jumpTarget d.npc target, .none, some (jumpTarget d.npc target)⟩ := rfl

theorem executeInstr_jr : executeInstr (.jr rs) d = ⟨d.a, .none, some d.a⟩ := rfl

theorem executeInstr_jal :
    executeInstr (.jal target) d = ⟨d.npc, .none, some (jumpTarget d.npc target)⟩ := rfl

end

variable (s : State)

/-- `beq` by itself: equality of the registers decides between the target and the next instruction. -/
theorem exec_beq : exec (.beq rs rt imm) s = .next (s.setPc
    (if s.readReg rs = s.readReg rt then BitVec.ofInt 32 (s.npc.toInt + 4 * imm.toInt) else s.npc)) := by
  rw [exec, execBeq, executeBeq, State.complete_branch s rfl, branchTarget_signExtended]
  simp only [decide_eq_true_eq]

/-- `bne` by itself: the same choice, the other way round. -/
theorem exec_bne : exec (.bne rs rt imm) s = .next (s.setPc
    (if s.readReg rs ≠ s.readReg rt then BitVec.ofInt 32 (s.npc.toInt + 4 * imm.toInt) else s.npc)) := by
  rw [exec, execBne, executeBne, State.complete_branch s rfl, branchTarget_signExtended]
  simp only [decide_eq_true_eq]

theorem exec_j : exec (.j target) s = .next (s.setPc (jumpTarget s.npc target)) := rfl

theorem exec_jal :
    exec (.jal target) s = .next ((s.writeReg 31 s.npc).setPc (jumpTarget s.npc target)) := rfl

end

end Sys2Proof.Machine

/-! ### The obligations of 44_branch_jump.md -/

section

open Sys2Proof Sys2Proof.Machine

/-- Settles O21: the comparison of the registers picks the pc of each completion, and nothing else is written. -/
theorem branches : Obligations.Branches := by
  refine ⟨fun s rs rt imm => ⟨fun heq => ⟨?_, ?_⟩, fun hne => ⟨?_, ?_⟩⟩, fun d rs rt imm =>
    ⟨decode_encode (.beq rs rt imm), decode_encode (.bne rs rt imm), rfl, rfl, executeInstr_beq rs rt imm d,
      executeInstr_bne rs rt imm d⟩⟩
  · exact transfersTo_of_exec_eq (by rw [exec_beq, if_pos heq, State.npc])
  · exact transfersTo_of_exec_eq (by rw [exec_bne, if_neg (not_not_intro heq), State.npc])
  · exact transfersTo_of_exec_eq (by rw [exec_beq, if_neg hne, State.npc])
  · exact transfersTo_of_exec_eq (by rw [exec_bne, if_pos hne, State.npc])

/-- Settles O22: both jumps complete by moving the pc alone, `j` to the target whose number is `toNat_jumpTarget`'s. -/
theorem jumpAndJumpRegister : Obligations.JumpAndJumpRegister := by
  refine ⟨fun s target => ?_, fun s rs => transfersTo_of_exec_eq (exec_jr rs s), fun d rs target =>
    ⟨decode_encode (.j target), decode_encode (.jr rs), rfl, rfl, ?_, executeInstr_jr rs d⟩⟩
  · rw [← jumpTarget_eq_ofNat]
    exact transfersTo_of_exec_eq (exec_j target s)
  · rw [executeInstr_j, jumpTarget_eq_ofNat]

/-- Settles O23: the completion writes the link value into register 31 and moves the pc to the target of `j`. -/
theorem jumpAndLink : Obligations.JumpAndLink := by
  refine ⟨fun s target => ⟨_, exec_jal target s, ⟨?_, fun r hr => ?_⟩, ?_, fun a => ?_,
    exec_sameOther (exec_jal target s)⟩, fun d target => ⟨decode_encode (.jal target), rfl, ?_⟩⟩
  · rw [State.setPc_readReg, State.readReg_writeReg, if_pos rfl, State.npc]
  · rw [State.setPc_readReg, State.readReg_writeReg_other s hr]
  · rw [State.setPc_pc, jumpTarget_eq_ofNat, State.npc]
  · rw [State.setPc_mem, State.writeReg_mem]
  · rw [executeInstr_jal, jumpTarget_eq_ofNat]

end

/-! ### The hazard condition (45_hazard_unit.md R220, R221) -/

namespace Sys2Proof.Machine

/-- An instruction outside the J-format names its two register fields; no other word names a register. -/
theorem mem_srcsOf_iff {r : RegIx} {w : Word} :
    r ∈ srcsOf w ↔ (r = rsOf w ∨ r = rtOf w) ∧ ∃ i, decode w = .instr i ∧ i.format ≠ .j := by
  cases hop : decode w with
  | illegal v => simp [srcsOf, hop]
  | instr i =>
    by_cases hj : i.format = .j
    · simp [srcsOf, hop, hj]
    · simp [srcsOf_of_decode hop hj, hj]

/-- A word that names a register names both of its register fields. -/
theorem srcsOf_eq_nil_or (w : Word) : srcsOf w = [] ∨ rsOf w ∈ srcsOf w ∧ rtOf w ∈ srcsOf w := by
  by_cases hnamed : ∃ i, decode w = .instr i ∧ i.format ≠ .j
  · exact .inr ⟨mem_srcsOf_iff.2 ⟨.inl rfl, hnamed⟩, mem_srcsOf_iff.2 ⟨.inr rfl, hnamed⟩⟩
  · exact .inl (List.eq_nil_iff_forall_not_mem.2 fun _ hr => hnamed (mem_srcsOf_iff.1 hr).2)

section

variable {s t : State}

/-- What the instruction in Execute adds to the hazard condition. -/
theorem State.hazardEx_iff {ir : Word} :
    s.hazardEx ir = true ↔ ∃ d, s.idex = some d ∧ d.dest ≠ 0#5 ∧ d.dest ∈ srcsOf ir := by
  cases hd : s.idex <;> simp [State.hazardEx, hd]

/-- What the instruction in Memory access adds to the hazard condition. -/
theorem State.hazardMem_iff {ir : Word} :
    s.hazardMem ir = true ↔ ∃ m, s.exmem = some m ∧ m.dest ≠ 0#5 ∧ m.dest ∈ srcsOf ir := by
  cases hm : s.exmem <;> simp [State.hazardMem, hm]

theorem State.hazard_iff {ir : Word} : s.hazard ir = true ↔ s.hazardEx ir = true ∨ s.hazardMem ir = true := by
  simp [State.hazard]

theorem State.hazard_eq_false_iff {ir : Word} :
    s.hazard ir = false ↔ s.hazardEx ir = false ∧ s.hazardMem ir = false := by
  simp [State.hazard]

theorem State.hazardEx_of_bubble (hd : s.idex = none) (ir : Word) : s.hazardEx ir = false := by
  simp [State.hazardEx, hd]

theorem State.flushing_of_bubble (hd : s.idex = none) : s.flushing = false := by
  simp [State.flushing, hd]

/-! ### The stall request (45_hazard_unit.md R223, R224) -/

/-- What the request counts for the instruction in Decode, in a tick without a flush. -/
theorem State.stallRequest_of_ifid {f : IfId} (hf : s.ifid = some f) (hflush : s.flushing = false) :
    s.stallRequest = if s.hazardEx f.ir then some 2 else if s.hazardMem f.ir then some 1 else none := by
  simp only [State.stallRequest, hf, hflush, Bool.false_or, Bool.not_eq_true', State.hazard_eq_false_iff]
  cases hex : s.hazardEx f.ir with
  | true => simp
  | false => cases hmem : s.hazardMem f.ir <;> simp

/-- Decode holds exactly on a hazard of the instruction in its latch, in a tick without a flush. -/
theorem State.holding_iff :
    s.holding = true ↔ s.flushing = false ∧ ∃ f, s.ifid = some f ∧ s.hazard f.ir = true := by
  unfold State.holding State.stallRequest
  cases s.ifid with
  | none => simp
  | some f => cases s.flushing <;> cases hhazard : s.hazard f.ir <;> simp [hhazard]

theorem State.holding_of_stallRequest {n : Nat} (h : s.stallRequest = some n) : s.holding = true := by
  simp [State.holding, h]

/-! ### What a tick leaves to the hazard unit -/

/-- The producer in Execute is in Memory access after a completed tick, with the same destination. -/
theorem step_cycle_hazardMem (hs : s.ticking = true) (h : step s = .next t) (ir : Word) :
    t.hazardMem ir = s.hazardEx ir := by
  rcases step_cycle_exmem hs h with ⟨hd, he⟩ | ⟨d, i, hd, -, he⟩
  · simp [State.hazardMem, State.hazardEx, hd, he]
  · simp [State.hazardMem, State.hazardEx, IdEx.toExMem, hd, he]

/-- A hold issues a bubble and keeps the IF/ID latch and the pc (R223). -/
theorem step_cycle_hold (hs : s.ticking = true) (hhold : s.holding = true) (h : step s = .next t) :
    t.ifid = s.ifid ∧ t.idex = none ∧ t.pc = s.pc := by
  obtain ⟨hflush, -⟩ := State.holding_iff.1 hhold
  have hfetching : s.fetching = false := by simp [State.fetching, hhold]
  refine ⟨?_, ?_, ?_⟩
  · simpa [hhold] using step_cycle_ifid_of_not_fetching hs hfetching h
  · simpa [hhold] using step_cycle_idex hs h
  · simpa [hfetching, State.takenTarget_of_not_flushing hflush] using step_cycle_pc hs h

/-- The four ways in which the IF/ID latch and the pc can stand after a completed tick (40_pipeline_stages.md R134 to
R138): a flush, a hold, a fetch, an idle Fetch. -/
theorem step_cycle_ifid_cases (hs : s.ticking = true) (h : step s = .next t) :
    (s.flushing = true ∧ t.ifid = none) ∨
    (s.holding = true ∧ t.ifid = s.ifid ∧ t.pc = s.pc) ∨
    (s.fetching = true ∧ t.ifid = some ⟨t.loadWord s.pc, s.npc, s.pc, t.loadWord s.pc⟩ ∧ t.pc = s.npc) ∨
    (t.ifid = none ∧ t.pc = s.pc) := by
  have hpc := step_cycle_pc hs h
  cases hfetching : s.fetching with
  | true => exact .inr (.inr (.inl ⟨rfl, step_cycle_fetched hs hfetching h, by simpa [hfetching] using hpc⟩))
  | false =>
    have hifid := step_cycle_ifid_of_not_fetching hs hfetching h
    cases hflush : s.flushing with
    | true => exact .inl ⟨rfl, by simpa [State.holding_of_flushing hflush] using hifid⟩
    | false =>
      cases hhold : s.holding with
      | true =>
        obtain ⟨hkept, -, hsame⟩ := step_cycle_hold hs hhold h
        exact .inr (.inl ⟨rfl, hkept, hsame⟩)
      | false =>
        refine .inr (.inr (.inr ⟨by simpa [hhold] using hifid, ?_⟩))
        simpa [hfetching, State.takenTarget_of_not_flushing hflush] using hpc

/-- After a hold the request is 1 if the producer was in Execute, for it is now in Memory access; else there is none. -/
theorem step_cycle_hold_stallRequest {f : IfId} (hs : s.ticking = true) (hhold : s.holding = true)
    (hf : s.ifid = some f) (h : step s = .next t) :
    t.stallRequest = if s.hazardEx f.ir then some 1 else none := by
  obtain ⟨hifid, hidex, -⟩ := step_cycle_hold hs hhold h
  rw [State.stallRequest_of_ifid (hifid.trans hf) (State.flushing_of_bubble hidex), State.hazardEx_of_bubble hidex,
    step_cycle_hazardMem hs h]
  rfl

/-! ### What an instruction in Decode reads (45_hazard_unit.md R225, R229) -/

/-- The destination in Write-back after a completed tick is that of the instruction in Memory access, if any. -/
theorem step_cycle_memwb_dest {l : MemWb} (hs : s.ticking = true) (h : step s = .next t) (hl : t.memwb = some l) :
    l.dest = 0#5 ∨ ∃ m, s.exmem = some m ∧ l.dest = m.dest := by
  rcases step_cycle_mem_cases hs h with
    ⟨-, -, hl'⟩ | ⟨m, hm, ⟨-, -, hl'⟩ | ⟨-, -, -, hl'⟩ | ⟨-, -, -, hl'⟩⟩
  · simp [hl] at hl'
  all_goals cases hl.symm.trans hl'
  · exact .inr ⟨m, hm, rfl⟩
  · exact .inr ⟨m, hm, rfl⟩
  · exact .inl rfl

/-- Write-back leaves a register that its latch does not name. -/
theorem stageWb_readReg_of_ne {r : RegIx} (hr : ∀ l, s.memwb = some l → l.dest ≠ 0#5 → r ≠ l.dest) :
    (stageWb s).readReg r = s.readReg r := by
  rw [stageWb_readReg]
  cases hl : s.memwb with
  | none => rfl
  | some l =>
    by_cases hne : r = l.dest
    · have hzero : l.dest = 0#5 := by_contra fun hdest => hr l hl hdest hne
      simp [hne, hzero]
    · exact if_neg hne

/-- The values that a tick leaves in the sources of a word without a producer in Memory access are final: the next
Write-back writes neither. -/
theorem step_cycle_source_final {ir : Word} {r : RegIx} (hs : s.ticking = true) (h : step s = .next t)
    (hmem : s.hazardMem ir = false) (hr : r ∈ srcsOf ir) : (stageWb t).readReg r = t.readReg r := by
  refine stageWb_readReg_of_ne fun l hl hdest hrl => ?_
  rcases step_cycle_memwb_dest hs h hl with hzero | ⟨m, hm, hlm⟩
  · exact hdest hzero
  · have hhazard : s.hazardMem ir = true := State.hazardMem_iff.2 ⟨m, hm, hlm ▸ hdest, hlm ▸ hrl ▸ hr⟩
    simp [hmem] at hhazard

/-! ### The coherence of the latches (45_hazard_unit.md R229) -/

theorem State.coherent_iff : s.coherent = true ↔ s.ifidCoherent = true ∧ s.idexCoherent = true := by
  simp [State.coherent]

theorem State.ifidCoherent_of_bubble (hf : s.ifid = none) : s.ifidCoherent = true := by
  simp [State.ifidCoherent, hf]

theorem State.ifidCoherent_iff {f : IfId} (hf : s.ifid = some f) :
    s.ifidCoherent = true ↔ f.ir = f.tIr ∧ f.npc = f.tPc + 4 ∧ s.pc = f.npc ∧ s.fetchable f.tPc = true := by
  simp [State.ifidCoherent, hf, and_assoc]

theorem State.idexCoherent_of_bubble (hd : s.idex = none) : s.idexCoherent = true := by
  simp [State.idexCoherent, hd]

theorem State.idexCoherent_iff {d : IdEx} (hd : s.idex = some d) :
    s.idexCoherent = true ↔
      d.op = decode d.tIr ∧ d.npc = d.tPc + 4 ∧ d.imm = immOf d.op d.tIr ∧ d.dest = destOf d.op ∧
      s.fetchable d.tPc = true ∧ ((∀ f, s.ifid = some f → f.tPc = d.npc) ∧ (s.ifid = none → s.pc = d.npc)) ∧
      s.hazardMem d.tIr = false ∧
      (srcsOf d.tIr = [] ∨
        d.a = (stageWb s).readReg (rsOf d.tIr) ∧ d.b = (stageWb s).readReg (rtOf d.tIr)) := by
  cases hf : s.ifid <;> simp [State.idexCoherent, hd, hf, and_assoc]

/-- What Fetch can have fetched from depends on the parameters alone. -/
theorem State.fetchable_congr (hparams : t.params = s.params) (a : Word) : t.fetchable a = s.fetchable a := by
  simp [State.fetchable, hparams]

theorem State.fetchable_of_fetching (hfetching : s.fetching = true) : s.fetchable s.pc = true := by
  obtain ⟨-, -, haligned, hrange⟩ := s.fetching_iff.1 hfetching
  simp [State.fetchable, s.pcAligned_iff.1 haligned, s.inFetchRange_iff.1 hrange]

/-- The instruction that a tick issues was in Decode, without a flush and without a hazard; its operands are the
registers that the tick leaves. -/
theorem step_cycle_issued {d : IdEx} (hs : s.ticking = true) (h : step s = .next t) (hd : t.idex = some d) :
    ∃ f, s.ifid = some f ∧ d = t.issue f ∧ s.flushing = false ∧ s.holding = false ∧ s.hazard f.ir = false := by
  rw [step_cycle_idex hs h] at hd
  obtain ⟨hsignals, hissue⟩ := Option.ite_none_left_eq_some.1 hd
  obtain ⟨hflush, hhold⟩ : s.flushing = false ∧ s.holding = false := by simpa using hsignals
  obtain ⟨f, hf, rfl⟩ := Option.map_eq_some_iff.1 hissue
  refine ⟨f, hf, rfl, hflush, hhold, Bool.eq_false_iff.2 fun hhazard => ?_⟩
  simp [State.holding_iff.2 ⟨hflush, f, hf, hhazard⟩] at hhold

/-- A tick keeps the IF/ID latch the one before the pc: a held latch with its pc, or a newly fetched word. -/
theorem step_cycle_ifidCoherent (hs : s.ticking = true) (hcoherent : s.ifidCoherent = true) (h : step s = .next t) :
    t.ifidCoherent = true := by
  have hfetchable := State.fetchable_congr (parametersNeverChange s t h).1
  rcases step_cycle_ifid_cases hs h with
    ⟨-, hnone⟩ | ⟨hhold, hifid, hpc⟩ | ⟨hfetching, hifid, hpc⟩ | ⟨hnone, -⟩
  · exact State.ifidCoherent_of_bubble hnone
  · obtain ⟨-, f, hf, -⟩ := State.holding_iff.1 hhold
    rw [State.ifidCoherent_iff (hifid.trans hf), hpc, hfetchable]
    exact (State.ifidCoherent_iff hf).1 hcoherent
  · rw [State.ifidCoherent_iff hifid, hfetchable]
    exact ⟨rfl, rfl, hpc, State.fetchable_of_fetching hfetching⟩
  · exact State.ifidCoherent_of_bubble hnone

/-- After a tick that issues the instruction in Decode, the pc after it is that of the next instruction: the one that
the tick fetched, or the one at the pc. -/
theorem step_cycle_follows (hs : s.ticking = true) (hflush : s.flushing = false) (hhold : s.holding = false)
    (h : step s = .next t) : (∀ f, t.ifid = some f → f.tPc = s.pc) ∧ (t.ifid = none → t.pc = s.pc) := by
  rcases step_cycle_ifid_cases hs h with
    ⟨hflushing, -⟩ | ⟨hholding, -⟩ | ⟨-, hifid, -⟩ | ⟨hnone, hpc⟩
  · simp [hflush] at hflushing
  · simp [hhold] at hholding
  · simp [hifid]
  · simp [hnone, hpc]

/-- What a tick issues is coherent: no hazard, so the producer that it had in Execute, now in Memory access, names none
of its sources, and the one it had in Memory access, now in Write-back, changes none of them. -/
theorem step_cycle_idexCoherent (hs : s.ticking = true) (hcoherent : s.ifidCoherent = true) (h : step s = .next t) :
    t.idexCoherent = true := by
  cases hd : t.idex with
  | none => exact State.idexCoherent_of_bubble hd
  | some d =>
    obtain ⟨f, hf, rfl, hflush, hhold, hhazard⟩ := step_cycle_issued hs h hd
    obtain ⟨hir, hnpc, hpc, hfetchable⟩ := (State.ifidCoherent_iff hf).1 hcoherent
    obtain ⟨hex, hmem⟩ := State.hazard_eq_false_iff.1 hhazard
    have hfinal {r : RegIx} (hr : r ∈ srcsOf f.ir) := step_cycle_source_final hs h hmem hr
    rw [State.idexCoherent_iff hd, State.fetchable_congr (parametersNeverChange s t h).1]
    simp only [State.issue, ← hir, ← hpc]
    refine ⟨trivial, hpc.trans hnpc, trivial, trivial, hfetchable, step_cycle_follows hs hflush hhold h,
      (step_cycle_hazardMem hs h f.ir).trans hex, ?_⟩
    rcases srcsOf_eq_nil_or f.ir with hnone | ⟨hrs, hrt⟩
    · exact .inl hnone
    · exact .inr ⟨(hfinal hrs).symm, (hfinal hrt).symm⟩

end

end Sys2Proof.Machine

/-! ### The obligations of 45_hazard_unit.md -/

section

open Sys2Proof Sys2Proof.Machine

/-- Settles O54: Fetch keeps the IF/ID latch before the pc, and Decode issues from a coherent IF/ID latch without a
hazard. -/
theorem tickKeepsCoherence : Obligations.TickKeepsCoherence := by
  intro s t hs hcoherent h
  obtain ⟨hifid, -⟩ := State.coherent_iff.1 hcoherent
  exact State.coherent_iff.2 ⟨step_cycle_ifidCoherent hs hifid h, step_cycle_idexCoherent hs hifid h⟩

/-- Settles O34: the request and both latches under a flush; after a hold there is a bubble in Execute, which takes no
transfer. -/
theorem flushBeatsHold : Obligations.FlushBeatsHold := by
  refine ⟨fun s hflush => ?_, fun s t hs hhold h => ?_⟩
  · have hhold : s.holding = false := State.holding_of_flushing hflush
    have hfetching : s.fetching = false := by simp [State.fetching, hflush]
    refine ⟨hhold, by simpa [State.holding] using hhold, fun hs t h => ⟨?_, ?_⟩⟩
    · simpa [hhold] using step_cycle_ifid_of_not_fetching hs hfetching h
    · simpa [hflush] using step_cycle_idex hs h
  · obtain ⟨-, hidex, -⟩ := step_cycle_hold hs hhold h
    exact State.flushing_of_bubble hidex

/-- Settles O35: the producers of the two latches, and the registers that a word names. -/
theorem hazardCondition : Obligations.HazardCondition := by
  intro s ir
  rw [State.hazard_iff, State.hazardEx_iff, State.hazardMem_iff]
  simp only [← mem_srcsOf_iff]
  constructor
  · rintro (⟨d, hd, hdest, hsrc⟩ | ⟨m, hm, hdest, hsrc⟩)
    · exact ⟨d.dest, hdest, .inl ⟨d, hd, rfl⟩, hsrc⟩
    · exact ⟨m.dest, hdest, .inr ⟨m, hm, rfl⟩, hsrc⟩
  · rintro ⟨_, hdest, ⟨d, hd, rfl⟩ | ⟨m, hm, rfl⟩, hsrc⟩
    · exact .inl ⟨d, hd, hdest, hsrc⟩
    · exact .inr ⟨m, hm, hdest, hsrc⟩

/-- Settles O36: Fetch's check passes in a hold, so the tick completes, and the stages past Decode go on as ever. -/
theorem holdKeepsDecodeAndFetch : Obligations.HoldKeepsDecodeAndFetch := by
  intro s f hs haccess hexecute hflush hf hhazard
  have hhold : s.holding = true := State.holding_iff.2 ⟨hflush, f, hf, hhazard⟩
  obtain ⟨t, ht⟩ := step_cycle_completes hs haccess hexecute (by simp [State.fetchPasses, hhold])
  obtain ⟨hifid, hidex, hpc⟩ := step_cycle_hold hs hhold ht
  refine ⟨t, ht, hifid.trans hf, hidex, hpc, fun hd => step_cycle_exmem_of_bubble hs hd ht,
    fun d i hd hop => step_cycle_exmem_of_instr hs hd hop ht, ?_⟩
  rcases step_cycle_mem_cases hs ht with
    ⟨hm, -, hl⟩ | ⟨m, hm, ⟨-, -, hl⟩ | ⟨-, -, -, hl⟩ | ⟨-, -, -, hl⟩⟩ <;> simp [hm, hl]

/-- Settles O41: the second hold starts with a bubble in Execute, so no request is left after it. -/
theorem holdAtMostTwoTicks : Obligations.HoldAtMostTwoTicks := by
  intro s t u hs hhold h hholdt hu
  have ht := step_cycle_ticking hs h
  obtain ⟨-, hidex, -⟩ := step_cycle_hold hs hhold h
  obtain ⟨-, huidex, -⟩ := step_cycle_hold ht hholdt hu
  obtain ⟨-, f, hf, -⟩ := State.holding_iff.1 hholdt
  have hrequest : u.stallRequest = none := by
    simpa [State.hazardEx_of_bubble hidex] using step_cycle_hold_stallRequest ht hholdt hf hu
  exact ⟨hidex, huidex, step_cycle_exmem_of_bubble ht hidex hu, by simp [State.holding, hrequest]⟩

/-- Settles O42: a request of 2 is a producer in Execute, which the tick moves on; a request of 1 is none there. -/
theorem stallRequestCountsDown : Obligations.StallRequestCountsDown := by
  refine fun s => ⟨fun f hf hflush hhazard => ?_, fun hs t h => ?_⟩
  · rw [State.stallRequest_of_ifid hf hflush]
    rcases State.hazard_iff.1 hhazard with hex | hmem
    · simp [hex]
    · simp [hmem, apply_ite some]
  · have hafter {n : Nat} (hn : s.stallRequest = some n) : t.stallRequest = if n = 2 then some 1 else none := by
      have hhold := State.holding_of_stallRequest hn
      obtain ⟨hflush, f, hf, -⟩ := State.holding_iff.1 hhold
      rw [State.stallRequest_of_ifid hf hflush] at hn
      rw [step_cycle_hold_stallRequest hs hhold hf h]
      cases hex : s.hazardEx f.ir with
      | true =>
        obtain rfl : 2 = n := by simpa [hex] using hn
        rfl
      | false =>
        obtain ⟨-, rfl⟩ : s.hazardMem f.ir = true ∧ 1 = n := by simpa [hex] using hn
        rfl
    exact ⟨fun h2 => hafter h2, fun h1 => hafter h1⟩

end

/-! ### The faults of a running core, at both levels (60_exceptions.md R241, R245, R247) -/

namespace Sys2Proof.Machine

section

variable {s : State} {f : Fault}

/-- The access check fails exactly for an access at a bad address (40_pipeline_stages.md R125). -/
theorem State.accessPasses_eq_false_iff {m : ExMem} (hm : s.exmem = some m) :
    s.accessPasses = false ↔ m.memop ≠ .none ∧ s.accessOk m.result = false := by
  simp [State.accessPasses_of_exmem hm]

/-- The completion of one instruction can fault in its memory access alone. -/
theorem State.complete_fault {i : Instr} {o : ExOut} {store : Word} (h : s.complete i o store = .fault f) :
    f = s.accessFault i := by
  unfold State.complete at h
  split at h
  · cases h
  · split at h
    · cases h
    · cases h; rfl
  · split at h
    · cases h
    · cases h; rfl

theorem exec_fault {i : Instr} (h : exec i s = .fault f) : f = s.accessFault i := by
  obtain ⟨o, store, hexec⟩ := exec_eq_complete i s
  exact State.complete_fault (hexec ▸ h)

/-- The three ways in which a sequential step can fault (70_reset_and_hazards.md R284). -/
theorem stepSequential_fault_cases (h : stepSequential s = .fault f) :
    (s.pcAligned = false ∧ f = .fetchMisaligned ⟨.IF, s.cycle + 1, s.pc, 0#32⟩) ∨
    (∃ i, decode (s.loadWord s.pc) = .instr i ∧ f = .memAccess ⟨.MEM, s.cycle + 1, s.pc, encode i⟩) ∨
    (∃ w, decode (s.loadWord s.pc) = .illegal w ∧ f = .unsupported ⟨.EX, s.cycle + 1, s.pc, w⟩) := by
  unfold stepSequential at h
  split at h
  · next hmisaligned => cases h; exact .inl ⟨by simpa using hmisaligned, rfl⟩
  · split at h
    · cases h
    · split at h
      · next i hi => exact .inr (.inl ⟨i, hi, (exec_fault h).trans (s.accessFault_eq i)⟩)
      · next w hw => cases h; exact .inr (.inr ⟨w, hw, rfl⟩)

/-- A running core steps as one of the two machines. -/
theorem ticking_or_sequencing_of_fault (hrun : s.halt = none) (h : step s = .fault f) :
    s.ticking = true ∨ s.sequencing = true := by
  cases hwf : s.params.wellFormed with
  | false => simp [step_of_bad_parameters hwf] at h
  | true => cases hlevel : s.level <;> simp [State.ticking, State.sequencing, State.running, hwf, hrun, hlevel]

end

end Sys2Proof.Machine

/-! ### The obligations of 60_exceptions.md -/

section

open Sys2Proof Sys2Proof.Machine

/-- Settles O44: the request of a hold counts 2 or 1, and neither machine raises a fourth kind of fault. -/
theorem hazardFailureNeverRaised : Obligations.HazardFailureNeverRaised := by
  refine ⟨fun s f hf hhold => ?_, fun s f hrun h => ?_⟩
  · obtain ⟨hflush, g, hg, hhazard⟩ := State.holding_iff.1 hhold
    obtain rfl : f = g := Option.some.inj (hf.symm.trans hg)
    rw [(stallRequestCountsDown s).1 f hf hflush hhazard]
    cases s.hazardEx f.ir
    · exact .inl rfl
    · exact .inr rfl
  · rcases ticking_or_sequencing_of_fault hrun h with hs | hs
    · rcases State.haltFault_cases ((step_cycle_fault_iff hs f).1 h) with
        ⟨m, -, -, rfl⟩ | ⟨d, w, -, -, rfl⟩ | ⟨-, rfl⟩ <;> exact nofun
    · rw [step_sequencing hs] at h
      rcases stepSequential_fault_cases h with ⟨-, rfl⟩ | ⟨i, -, rfl⟩ | ⟨w, -, rfl⟩ <;> exact nofun

/-- Settles O45: the fault that the start of the tick foretells, in its three cases. -/
theorem haltDiagnostic : Obligations.HaltDiagnostic := by
  intro s f hs h
  rcases State.haltFault_cases ((step_cycle_fault_iff hs f).1 h) with
    ⟨m, hm, hfails, rfl⟩ | ⟨d, w, hd, hop, rfl⟩ | ⟨hfails, rfl⟩
  · obtain ⟨hop, hbad⟩ := (State.accessPasses_eq_false_iff hm).1 hfails
    exact ⟨rfl, .inl ⟨rfl, rfl, m, hm, hop, hbad, rfl, rfl⟩⟩
  · exact ⟨rfl, .inr (.inl ⟨rfl, rfl, d, w, hd, hop, rfl, rfl⟩)⟩
  · obtain ⟨-, -, hmisaligned⟩ := s.fetchPasses_eq_false_iff.1 hfails
    have hpc : s.pc.toNat % 4 ≠ 0 := by simpa [State.pcAligned] using hmisaligned
    exact ⟨rfl, .inr (.inr ⟨rfl, rfl, hpc, rfl, rfl⟩)⟩

end

/-! ### The fields of a decoded word (30_encoding.md R91 to R96) -/

namespace Sys2Proof

/-- The instruction of the same row of the opcode table whose fields are those of the word `w`. -/
def Instr.withFieldsOf (w : Word) : Instr → Instr
  | .sll .. => .sll (rtOf w) (rdOf w) (shamtOf w)
  | .srl .. => .srl (rtOf w) (rdOf w) (shamtOf w)
  | .sra .. => .sra (rtOf w) (rdOf w) (shamtOf w)
  | .jr .. => .jr (rsOf w)
  | .add .. => .add (rsOf w) (rtOf w) (rdOf w)
  | .sub .. => .sub (rsOf w) (rtOf w) (rdOf w)
  | .and .. => .and (rsOf w) (rtOf w) (rdOf w)
  | .or .. => .or (rsOf w) (rtOf w) (rdOf w)
  | .nor .. => .nor (rsOf w) (rtOf w) (rdOf w)
  | .slt .. => .slt (rsOf w) (rtOf w) (rdOf w)
  | .beq .. => .beq (rsOf w) (rtOf w) (imm16Of w)
  | .bne .. => .bne (rsOf w) (rtOf w) (imm16Of w)
  | .addi .. => .addi (rsOf w) (rtOf w) (imm16Of w)
  | .slti .. => .slti (rsOf w) (rtOf w) (imm16Of w)
  | .andi .. => .andi (rsOf w) (rtOf w) (imm16Of w)
  | .ori .. => .ori (rsOf w) (rtOf w) (imm16Of w)
  | .lw .. => .lw (rsOf w) (rtOf w) (imm16Of w)
  | .sw .. => .sw (rsOf w) (rtOf w) (imm16Of w)
  | .j .. => .j (targetOf w)
  | .jal .. => .jal (targetOf w)

/-- A decoded operation has the fields of the word `w`, if it is an instruction. -/
def Op.hasFieldsOf (w : Word) (op : Op) : Prop := ∀ i, op = .instr i → i.withFieldsOf w = i

theorem Op.hasFieldsOf_instr {w : Word} {i : Instr} (h : i.withFieldsOf w = i) : (Op.instr i).hasFieldsOf w := by
  rintro _ ⟨⟩
  exact h

theorem decodeFunct_hasFieldsOf (w : Word) : (decodeFunct w).hasFieldsOf w := by
  unfold decodeFunct
  iterate 10
    refine iteInduction (motive := Op.hasFieldsOf w) (fun _ => Op.hasFieldsOf_instr rfl) fun _ => ?_
  exact nofun

theorem decode_hasFieldsOf (w : Word) : (decode w).hasFieldsOf w := by
  unfold decode
  refine iteInduction (motive := Op.hasFieldsOf w) (fun _ => decodeFunct_hasFieldsOf w) fun _ => ?_
  iterate 10
    refine iteInduction (motive := Op.hasFieldsOf w) (fun _ => Op.hasFieldsOf_instr rfl) fun _ => ?_
  exact nofun

/-- An instruction that is decoded has the fields of its word, each read from where its format has it. -/
theorem withFieldsOf_of_decode {w : Word} {i : Instr} (h : decode w = .instr i) : i.withFieldsOf w = i :=
  decode_hasFieldsOf w i h

/-- A word is put together from its opcode and the fields of the I-format (R92). -/
theorem encodeI_fields (w : Word) : encodeI (opcodeOf w) (rsOf w) (rtOf w) (imm16Of w) = w := by
  apply BitVec.eq_of_getLsbD_eq
  intro k hk
  interval_cases k <;> simp [encodeI, placed, opcodeOf, rsOf, rtOf, imm16Of]

/-- The I-format has no unused field: the word is the only one that decodes to its instruction. -/
theorem encode_of_decode {w : Word} {i : Instr} (h : decode w = .instr i) (hi : i.format = .i) : encode i = w := by
  have hfits : i.row.holds w = true := by simpa [h, Op.fits] using decode_fits w
  have hopcode : opcodeOf w = opcodeOf (encode i) := ((i.row_holds_iff w).1 hfits).1
  calc encode i
      = encodeI (opcodeOf (encode i)) (rsOf w) (rtOf w) (imm16Of w) := by
        rw [← withFieldsOf_of_decode h]
        cases i with
        | beq | bne | addi | slti | andi | ori | lw | sw => simp [Instr.withFieldsOf, encode]
        | _ => cases hi
    _ = w := by rw [← hopcode, encodeI_fields]

/-- The instruction that four bytes decode to is that of their word (R103). -/
theorem decode_of_decodeBytes {b0 b1 b2 b3 : Byte} {i : Instr} {rest : List Byte}
    (h : decodeBytes [b0, b1, b2, b3] = .ok (i, rest)) : decode (wordOfBytes b0 b1 b2 b3) = .instr i := by
  rw [decodeBytes] at h
  cases hdecode : decode (wordOfBytes b0 b1 b2 b3) with
  | instr j =>
    rw [hdecode] at h
    cases h
    rfl
  | illegal w =>
    rw [hdecode] at h
    cases h

/-- An unsupported encoding is decoded to its raw word (R107). -/
theorem eq_of_decode_illegal {w v : Word} (h : decode w = .illegal v) : v = w := by
  simpa [h, Op.fits] using decode_fits w

end Sys2Proof

namespace Sys2Proof.Machine

/-- An instruction's effect is its row of Execute on the latch that Decode makes of any word of the instruction,
completed: with the fields read off the word, both sides of each row are the same term. -/
theorem exec_eq_complete_issue {w : Word} {i : Instr} (h : decode w = .instr i) (s : State) :
    exec i s = s.complete i (executeInstr i (s.issue ⟨w, s.npc, s.pc, w⟩)) (s.readReg (rtOf w)) := by
  rw [State.issue, h, ← withFieldsOf_of_decode h]
  cases i <;> rfl

/-- The transfers of the J-format take the target and the link value from the address alone. -/
theorem exec_jFormat {i : Instr} (hi : i.format = .j) {s : State} {d : IdEx} (hnpc : d.npc = s.npc) :
    exec i s = s.complete i (executeInstr i d) d.b := by
  cases i with
  | j target | jal target => rw [executeInstr, hnpc]; rfl
  | _ => cases hi

end Sys2Proof.Machine

/-! ### Runs of several steps -/

namespace Sys2Proof.Machine

/-- A run that completes is a step that completes, and then the rest of the run. -/
theorem run_succ_next {k : Nat} {s t : State} :
    Sys2Proof.core.run (k + 1) s = .next t ↔ ∃ u, step s = .next u ∧ Sys2Proof.core.run k u = .next t := by
  have hrun (M : Host.Core) (s t : M.State) :
      M.run (k + 1) s = .next t ↔ ∃ u, M.step s = .next u ∧ M.run k u = .next t := by
    rw [Host.Core.run]
    cases M.step s <;> simp
  exact hrun Sys2Proof.core s t

/-- A run that completes is the run before its last step, and then that step. -/
theorem run_succ_last {k : Nat} {s t : State} (h : Sys2Proof.core.run (k + 1) s = .next t) :
    ∃ u, Sys2Proof.core.run k s = .next u ∧ step u = .next t := by
  induction k generalizing s with
  | zero =>
    obtain ⟨u, hu, hrest⟩ := run_succ_next.1 h
    cases hrest
    exact ⟨s, rfl, hu⟩
  | succ k ih =>
    obtain ⟨v, hv, hrest⟩ := run_succ_next.1 h
    obtain ⟨u, hu, hstep⟩ := ih hrest
    exact ⟨u, run_succ_next.2 ⟨v, hv, hu⟩, hstep⟩

/-! ### The architectural state without its age

The tick counter is in no rule of the sequential machine but the diagnostic of a fault (assumption log 6).
-/

/-- The state with another tick counter. -/
def State.atCycle (s : State) (n : Nat) : State := { s with cycle := n }

/-- Two outcomes differ in the tick counter alone: that of the state, or that of the diagnostic. -/
inductive SameButCycle : Result → Result → Prop where
  | next (s : State) (n : Nat) : SameButCycle (.next (s.atCycle n)) (.next s)
  | fault {f g : Fault} (h : f.sameError g = true) : SameButCycle (.fault f) (.fault g)

theorem State.sameArch_atCycle (s : State) (n : Nat) : (s.atCycle n).sameArch s = true := by
  simp [State.sameArch, State.atCycle]

theorem Fault.sameError_refl (f : Fault) : f.sameError f = true := by
  simp [Fault.sameError]

theorem SameButCycle.sameOutcome {r q : Result} (h : SameButCycle r q) : sameOutcome r q = true := by
  cases h with
  | next s n => exact s.sameArch_atCycle n
  | fault h => exact h

/-- An outcome that differs from a next state in the tick counter alone is a next state. -/
theorem SameButCycle.eq_next {r : Result} {t : State} (h : SameButCycle r (.next t)) :
    ∃ n, r = .next (t.atCycle n) := by
  cases h with
  | next _ n => exact ⟨n, rfl⟩

@[simp] theorem State.atCycle_setPc (s : State) (n : Nat) (a : Word) :
    (s.atCycle n).setPc a = (s.setPc a).atCycle n := rfl

@[simp] theorem State.atCycle_storeWord (s : State) (n : Nat) (addr v : Word) :
    (s.atCycle n).storeWord addr v = (s.storeWord addr v).atCycle n := rfl

@[simp] theorem State.atCycle_writeReg (s : State) (n : Nat) (r : RegIx) (v : Word) :
    (s.atCycle n).writeReg r v = (s.writeReg r v).atCycle n := by
  unfold State.writeReg
  split <;> rfl

/-- The faults raised at two tick numbers are the same error. -/
theorem State.haltRecord_atCycle_sameError (s : State) (n : Nat) (cause : HaltCause) (stage : Stage) (tPc tIr : Word) :
    (Fault.ofRecord ((s.atCycle n).haltRecord cause stage tPc tIr)).sameError
      (Fault.ofRecord (s.haltRecord cause stage tPc tIr)) = true := by
  cases cause <;> simp [Fault.sameError, Fault.ofRecord, Fault.cause, Fault.diagnostic, State.haltRecord]

/-- The completion of an instruction reads no tick counter. -/
theorem State.complete_atCycle (s : State) (n : Nat) (i : Instr) (o : ExOut) (store : Word) :
    SameButCycle ((s.atCycle n).complete i o store) (s.complete i o store) := by
  have hok : (s.atCycle n).accessOk o.result = s.accessOk o.result := rfl
  have hload : (s.atCycle n).loadWord o.result = s.loadWord o.result := rfl
  have hnpc : (s.atCycle n).npc = s.npc := rfl
  unfold State.complete
  simp only [hok, hload, hnpc, State.atCycle_writeReg, State.atCycle_storeWord, State.atCycle_setPc]
  split
  · exact .next _ n
  · split
    · exact .next _ n
    · exact .fault (s.haltRecord_atCycle_sameError n ..)
  · split
    · exact .next _ n
    · exact .fault (s.haltRecord_atCycle_sameError n ..)

theorem exec_atCycle (i : Instr) (s : State) (n : Nat) : SameButCycle (exec i (s.atCycle n)) (exec i s) := by
  rw [exec_eq_complete_issueEncoded, exec_eq_complete_issueEncoded]
  exact s.complete_atCycle n i _ _

/-- The sequential machine reads no tick counter. -/
theorem stepSequential_atCycle (s : State) (n : Nat) :
    SameButCycle (stepSequential (s.atCycle n)) (stepSequential s) := by
  have haligned : (s.atCycle n).pcAligned = s.pcAligned := rfl
  have hrange : (s.atCycle n).inFetchRange = s.inFetchRange := rfl
  have hload : (s.atCycle n).loadWord (s.atCycle n).pc = s.loadWord s.pc := rfl
  unfold stepSequential
  rw [haligned, hrange, hload]
  split
  · exact .fault (s.haltRecord_atCycle_sameError n ..)
  · split
    · exact .next s n
    · split
      · next i hi => exact exec_atCycle i s n
      · exact .fault (s.haltRecord_atCycle_sameError n ..)

/-- A run of the sequential machine is the same from any tick number. -/
theorem run_atCycle {k : Nat} {s t : State} (hlevel : s.level = .sequential) (n : Nat)
    (h : Sys2Proof.core.run k s = .next t) : ∃ m, Sys2Proof.core.run k (s.atCycle n) = .next (t.atCycle m) := by
  induction k generalizing s n with
  | zero => cases h; exact ⟨n, rfl⟩
  | succ k ih =>
    obtain ⟨u, hu, hrun⟩ := run_succ_next.1 h
    have hs : s.sequencing = true := by
      rcases step_next_running hu with hticking | hsequencing
      · simp [(s.ticking_iff.1 hticking).2.2] at hlevel
      · exact hsequencing
    have hsame := stepSequential_atCycle s n
    rw [← step_sequencing hs, hu, ← step_sequencing (s := s.atCycle n) hs] at hsame
    obtain ⟨m, hstep⟩ := hsame.eq_next
    obtain ⟨m', hm'⟩ := ih ((parametersNeverChange s u hu).2.trans hlevel) m hrun
    exact ⟨m', run_succ_next.2 ⟨_, hstep, hm'⟩⟩

end Sys2Proof.Machine

/-! ### The architectural view (70_reset_and_hazards.md R283) -/

namespace Sys2Proof.Machine

/-- The state at the sequential level, with empty latches and the pc at `a`. -/
def State.emptied (s : State) (a : Word) : State :=
  { s with level := .sequential, pc := a, ifid := none, idex := none, exmem := none, memwb := none }

section

variable {s t : State}

theorem stageWb_of_bubble (hl : s.memwb = none) : stageWb s = s := by
  simp [stageWb, hl]

theorem stageWb_of_memwb {l : MemWb} (hl : s.memwb = some l) : stageWb s = s.writeReg l.dest l.value := by
  simp [stageWb, hl]

/-- The registers that Write-back leaves depend on the registers and the MEM/WB latch alone. -/
theorem stageWb_x_congr (hx : t.x = s.x) (hmemwb : t.memwb = s.memwb) : (stageWb t).x = (stageWb s).x := by
  unfold stageWb
  rw [hmemwb]
  cases s.memwb with
  | none => exact hx
  | some l =>
    simp only [State.writeReg]
    split
    · exact hx
    · simp only [hx]

/-- A register write before the latches are emptied is one after it, whatever the pc. -/
theorem State.emptied_writeReg (s : State) (r : RegIx) (v a b : Word) :
    (s.writeReg r v).emptied a = ((s.emptied b).writeReg r v).setPc a := by
  unfold State.writeReg
  split <;> rfl

/-- The view once the access check has passed. -/
theorem archView_of_go {s2 : State} {l : Option MemWb} (h : stageMem (stageWb s) = .go s2 l) :
    s.archView = .next ((stageWb { s2 with memwb := l }).emptied s.nextAddr) := by
  simp only [State.archView, h]
  rfl

/-- The two outcomes of the view: a state, where the access check passes; or the fault that the tick foretells. -/
theorem archView_cases (s : State) :
    (s.accessPasses = true ∧
      ∃ s2 l, stageMem (stageWb s) = .go s2 l ∧
        s.archView = .next ((stageWb { s2 with memwb := l }).emptied s.nextAddr)) ∨
    ∃ f, s.haltFault = some f ∧ s.archView = .fault f := by
  cases hmem : stageMem (stageWb s) with
  | go s2 l =>
    have hpasses : s.accessPasses = true :=
      (State.accessPasses_congr (by simp) (by simp)).symm.trans (accessPasses_of_stageMem_go hmem)
    exact .inl ⟨hpasses, s2, l, rfl, archView_of_go hmem⟩
  | halted u =>
    obtain ⟨m, -, -, -, rfl⟩ := stageMem_halted hmem
    have hfault := haltFault_of_stageMem_halted hmem
    rw [State.raiseHalt_halt, Option.map_some] at hfault
    refine .inr ⟨_, hfault.symm, ?_⟩
    simp only [State.archView, hmem]
    rfl

/-- The view, where it is a state, is a state of the sequential machine at the next instruction to execute. -/
theorem archView_next {a : State} (h : s.archView = .next a) :
    a.pc = s.nextAddr ∧ a.params = s.params ∧ a.level = .sequential ∧ a.halt = s.halt := by
  rcases archView_cases s with ⟨-, s2, l, hmem, hview⟩ | ⟨f, -, hview⟩
  · obtain ⟨m, rfl⟩ := stageMem_go_eq hmem
    cases h.symm.trans hview
    simp [State.emptied]
  · simp [h] at hview

/-- The view of a state that ticks is a state that the sequential machine runs. -/
theorem archView_sequencing {a : State} (hs : s.ticking = true) (h : s.archView = .next a) : a.sequencing = true := by
  obtain ⟨hwf, hhalt, -⟩ := s.ticking_iff.1 hs
  obtain ⟨-, hparams, hlevel, hahalt⟩ := archView_next h
  simp [State.sequencing, State.running, hparams, hwf, hahalt, hhalt, hlevel]

/-- The view with a bubble in Memory access. -/
theorem archView_of_bubble (hm : s.exmem = none) : s.archView = .next ((stageWb s).emptied s.nextAddr) := by
  have hmem : stageMem (stageWb s) = .go (stageWb s) none := by simp [stageMem, hm]
  rw [archView_of_go hmem, stageWb_of_bubble rfl]
  rfl

/-- The view where the access check fails. -/
theorem archView_of_accessFails {m : ExMem} (hm : s.exmem = some m) (hfails : s.accessPasses = false) :
    s.archView = .fault (.memAccess ⟨.MEM, s.cycle + 1, m.tPc, m.tIr⟩) := by
  rcases archView_cases s with ⟨hpasses, -⟩ | ⟨f, hfault, hview⟩
  · simp [hfails] at hpasses
  · simp only [State.haltFault, hfails, hm, Bool.not_false, if_true, Option.map_some, Option.some.injEq] at hfault
    rw [hview, hfault]

/-- An access at a bad address by itself is the fault of its instruction. -/
theorem State.complete_of_bad_access {i : Instr} {o : ExOut} (hop : o.memop ≠ .none)
    (hbad : s.accessOk o.result = false) (store : Word) : s.complete i o store = .fault (s.accessFault i) := by
  unfold State.complete
  split
  · next hnone => exact absurd hnone hop
  · simp [hbad]
  · simp [hbad]

/-- The view with an instruction `i` in Memory access, whose row of Execute was `o`: the completion of that instruction
on the view without it. -/
theorem archView_eq_complete {m : ExMem} {i : Instr} {o : ExOut} (hm : s.exmem = some m) (hresult : o.result = m.result)
    (hmemop : o.memop = m.memop) (hdest : destOf (.instr i) = m.dest)
    (hnext : s.nextAddr = o.redirect.getD (m.tPc + 4)) (hword : m.memop ≠ .none → encode i = m.tIr) :
    s.archView = ((stageWb s).emptied m.tPc).complete i o m.store := by
  have hok : ((stageWb s).emptied m.tPc).accessOk m.result = s.accessOk m.result :=
    State.accessOk_congr (stageWb_params s) _
  have hokWb : (stageWb s).accessOk m.result = s.accessOk m.result := State.accessOk_congr (stageWb_params s) _
  cases hpasses : s.accessPasses with
  | false =>
    obtain ⟨hop, hbad⟩ := (State.accessPasses_eq_false_iff hm).1 hpasses
    rw [archView_of_accessFails hm hpasses,
      State.complete_of_bad_access (hmemop ▸ hop) (by rw [hresult, hok, hbad]), State.accessFault_eq, hword hop]
    simp [State.emptied]
  | true =>
    have haccess (hop : m.memop ≠ .none) : s.accessOk m.result = true := by
      simpa [State.accessPasses_of_exmem hm, hop] using hpasses
    have hnpc : o.redirect.getD ((stageWb s).emptied m.tPc).npc = s.nextAddr := hnext.symm
    have hwritten (v : Word) :
        (stageWb { stageWb s with memwb := some ⟨v, m.dest, m.tPc, m.tIr⟩ }).emptied s.nextAddr =
          (((stageWb s).emptied m.tPc).writeReg m.dest v).setPc s.nextAddr := by
      rw [stageWb_of_memwb rfl, State.emptied_writeReg _ _ _ _ m.tPc]
      rfl
    simp only [State.complete, hmemop, hnpc, hdest, hresult, hok]
    cases hop : m.memop with
    | none =>
      have hmem : stageMem (stageWb s) = .go (stageWb s) (some ⟨m.result, m.dest, m.tPc, m.tIr⟩) := by
        simp [stageMem, hm, hop]
      rw [archView_of_go hmem, hwritten]
    | load =>
      have hmem : stageMem (stageWb s) =
          .go (stageWb s) (some ⟨(stageWb s).loadWord m.result, m.dest, m.tPc, m.tIr⟩) := by
        simp [stageMem, hm, hop, hokWb, haccess]
      rw [archView_of_go hmem, hwritten, haccess (by simp [hop])]
      rfl
    | store =>
      have hmem : stageMem (stageWb s) =
          .go ((stageWb s).storeWord m.result m.store) (some ⟨m.result, 0#5, m.tPc, m.tIr⟩) := by
        simp [stageMem, hm, hop, hokWb, haccess]
      rw [archView_of_go hmem, stageWb_of_memwb rfl, haccess (by simp [hop])]
      rfl

end

end Sys2Proof.Machine

/-! ### A tick seen through the architectural view (70_reset_and_hazards.md R283) -/

namespace Sys2Proof.Machine

/-- The address of the instruction after the one in Execute: the one in Decode, else the one at the pc. -/
def State.followAddr (s : State) : Word := (s.ifid.map IfId.tPc).getD s.pc

section

variable {s t a : State}

theorem State.nextAddr_of_instr {d : IdEx} (hd : s.idex = some d) : s.nextAddr = d.tPc := by
  simp [State.nextAddr, hd]

theorem State.nextAddr_of_bubble (hd : s.idex = none) : s.nextAddr = s.followAddr := by
  cases hf : s.ifid <;> simp [State.nextAddr, State.followAddr, hd, hf]

/-- Coherent latches are in program order. -/
theorem State.followAddr_of_coherent {d : IdEx} (hd : s.idex = some d) (hcoherent : s.idexCoherent = true) :
    s.followAddr = d.tPc + 4 := by
  obtain ⟨-, hnpc, -, -, -, ⟨hdecode, hfetch⟩, -⟩ := (State.idexCoherent_iff hd).1 hcoherent
  rw [← hnpc]
  cases hf : s.ifid with
  | none => simpa [State.followAddr, hf] using hfetch hf
  | some f => simpa [State.followAddr, hf] using hdecode f hf

/-- After a completed tick the next instruction to execute is the one at the target of the taken transfer, or else the
one that followed. -/
theorem step_cycle_nextAddr (hs : s.ticking = true) (h : step s = .next t) :
    t.nextAddr = s.takenTarget.getD s.followAddr := by
  have hidex := step_cycle_idex hs h
  cases hflush : s.flushing with
  | true =>
    obtain ⟨target, htarget⟩ := Option.isSome_iff_exists.1 (s.flushing_eq.symm.trans hflush)
    obtain ⟨d, hd, hredirect⟩ := Option.bind_eq_some_iff.1 htarget
    obtain ⟨hpc, hifid, hidex, -⟩ := step_cycle_taken hs hd hredirect h
    simp [State.nextAddr, hidex, hifid, hpc, htarget]
  | false =>
    rw [State.takenTarget_of_not_flushing hflush, Option.getD_none]
    cases hhold : s.holding with
    | true =>
      obtain ⟨hifid, hidex, hpc⟩ := step_cycle_hold hs hhold h
      simp [State.nextAddr_of_bubble hidex, State.followAddr, hifid, hpc]
    | false =>
      cases hf : s.ifid with
      | some f =>
        have hissued : t.idex = some (t.issue f) := by simpa [hflush, hhold, hf] using hidex
        simp [State.nextAddr_of_instr hissued, State.issue, State.followAddr, hf]
      | none =>
        have hbubble : t.idex = none := by simpa [hf] using hidex
        obtain ⟨hfetched, hidle⟩ := step_cycle_follows hs hflush hhold h
        rw [State.nextAddr_of_bubble hbubble]
        cases hft : t.ifid with
        | none => simpa [State.followAddr, hf, hft] using hidle hft
        | some f => simpa [State.followAddr, hf, hft] using hfetched f hft

/-- The registers after a completed tick are those that Write-back leaves, as a whole. -/
theorem step_cycle_x (hs : s.ticking = true) (h : step s = .next t) : t.x = (stageWb s).x := by
  obtain ⟨s2, l, s3, e, red, s4, f, hmem, hex, hif, rfl⟩ := step_cycle_cases hs h
  obtain ⟨pc, rfl⟩ := stageIf_go_eq hif
  rw [afterExecute_eq hmem hex]
  rfl

/-- Before a completed tick the view is a state: the registers are those that the Write-backs of this tick and of the
next one leave, the memory is the one that this tick leaves. -/
theorem step_cycle_archView (hs : s.ticking = true) (h : step s = .next t) :
    s.archView = .next (((stageWb t).emptied s.nextAddr).atCycle s.cycle) := by
  obtain ⟨s2, hmem, hmemory⟩ := step_cycle_mem hs h
  obtain ⟨-, hhalts, -⟩ := s.ticking_iff.1 hs
  obtain ⟨-, hhaltt, -⟩ := t.ticking_iff.1 (step_cycle_ticking hs h)
  obtain ⟨m, rfl⟩ := stageMem_go_eq hmem
  have hx : (stageWb t).x = (stageWb { stageWb s with mem := m, memwb := t.memwb }).x :=
    stageWb_x_congr (step_cycle_x hs h) rfl
  rw [archView_of_go hmem]
  simp [State.emptied, State.atCycle, hx, hmemory, hhalts, hhaltt, (parametersNeverChange s t h).1]

/-- The sources of a word without a producer in Memory access read the same after this tick's Write-back and after the
next one. -/
theorem step_cycle_source_stable {r : RegIx} {w : Word} (hs : s.ticking = true) (h : step s = .next t)
    (hmem : s.hazardMem w = false) (hr : r ∈ srcsOf w) : (stageWb t).readReg r = (stageWb s).readReg r :=
  (step_cycle_source_final hs h hmem hr).trans (step_cycle_readReg hs h r)

/-- On the view, the instruction in Execute is its row on the latch, completed. -/
theorem exec_view {d : IdEx} {i : Instr} (hs : s.ticking = true) (hcoherent : s.idexCoherent = true)
    (hd : s.idex = some d) (hop : d.op = .instr i) (h : step s = .next t) :
    exec i ((stageWb t).emptied d.tPc) = ((stageWb t).emptied d.tPc).complete i (executeInstr i d) d.b := by
  obtain ⟨hdecode, hnpc, himm, hdest, -, -, hmem, hoperands⟩ := (State.idexCoherent_iff hd).1 hcoherent
  by_cases hj : i.format = .j
  · exact exec_jFormat hj hnpc
  · have hsrcs := srcsOf_of_decode (hdecode.symm.trans hop) hj
    have hread {r : RegIx} (hr : r ∈ srcsOf d.tIr) :
        ((stageWb t).emptied d.tPc).readReg r = (stageWb s).readReg r := step_cycle_source_stable hs h hmem hr
    obtain ⟨ha, hb⟩ := hoperands.resolve_left (by simp [hsrcs])
    rw [← hread (by simp [hsrcs])] at ha hb
    have hsame : ((stageWb t).emptied d.tPc).npc = d.npc := hnpc.symm
    have hissue : ((stageWb t).emptied d.tPc).issue
        ⟨d.tIr, ((stageWb t).emptied d.tPc).npc, ((stageWb t).emptied d.tPc).pc, d.tIr⟩ = d := by
      rw [State.issue, ← hdecode, ← himm, ← hdest, ← ha, ← hb, hsame]
      rfl
    rw [exec_eq_complete_issue (hdecode.symm.trans hop), hissue, ← hb]

/-- Only `lw` and `sw` access memory, and the I-format leaves no field out. -/
theorem encode_of_access {d : IdEx} {i : Instr} {w : Word} (h : decode w = .instr i)
    (hop : (executeInstr i d).memop ≠ .none) : encode i = w := by
  refine encode_of_decode h ?_
  cases i with
  | lw | sw => rfl
  | _ => exact absurd rfl hop

/-- After a completed tick the view is the effect of the instruction that was in Execute. -/
theorem step_cycle_archView_of_instr {d : IdEx} {i : Instr} (hs : s.ticking = true) (hcoherent : s.idexCoherent = true)
    (hd : s.idex = some d) (hop : d.op = .instr i) (h : step s = .next t) :
    t.archView = exec i ((stageWb t).emptied d.tPc) := by
  obtain ⟨hdecode, -, -, hdest, -⟩ := (State.idexCoherent_iff hd).1 hcoherent
  have hnext : t.nextAddr = (executeInstr i d).redirect.getD (d.tPc + 4) := by
    rw [step_cycle_nextAddr hs h, State.followAddr_of_coherent hd hcoherent, State.takenTarget, hd, Option.bind_some,
      redirectOf_instr hop]
  rw [exec_view hs hcoherent hd hop h]
  exact archView_eq_complete (step_cycle_exmem_of_instr hs hd hop h) rfl rfl (by rw [← hop]; exact hdest.symm) hnext
    (encode_of_access (hdecode.symm.trans hop))

/-- After a completed tick with a bubble in Execute the view is the one before it. -/
theorem step_cycle_archView_of_bubble (hs : s.ticking = true) (hd : s.idex = none) (h : step s = .next t) :
    t.archView = .next ((stageWb t).emptied s.nextAddr) := by
  rw [archView_of_bubble (step_cycle_exmem_of_bubble hs hd h), step_cycle_nextAddr hs h,
    State.takenTarget_of_not_flushing (State.flushing_of_bubble hd), Option.getD_none, State.nextAddr_of_bubble hd]

end

end Sys2Proof.Machine

/-! ### The sequential machine and the pipeline's runs (70_reset_and_hazards.md R283) -/

namespace Sys2Proof.Machine

section

variable {s : State}

/-- A sequential step at a misaligned pc. -/
theorem stepSequential_of_misaligned (ha : s.pcAligned = false) :
    stepSequential s = .fault (.fetchMisaligned ⟨.IF, s.cycle + 1, s.pc, 0#32⟩) := by
  simp [stepSequential, ha, Fault.ofRecord, State.haltRecord]

/-- The final states of the sequential machine. -/
theorem stepSequential_of_stop (ha : s.pcAligned = true) (hr : s.inFetchRange = false) :
    stepSequential s = .next s := by
  simp [stepSequential, ha, hr]

/-- A sequential step at an unsupported encoding. -/
theorem stepSequential_of_illegal {w : Word} (ha : s.pcAligned = true) (hr : s.inFetchRange = true)
    (hw : decode (s.loadWord s.pc) = .illegal w) :
    stepSequential s = .fault (.unsupported ⟨.EX, s.cycle + 1, s.pc, w⟩) := by
  simp [stepSequential, ha, hr, hw, Fault.ofRecord, State.haltRecord]

end

section

variable {s t a : State}

/-- The instruction in Execute at a completed tick is one: an unsupported encoding halts the tick. -/
theorem step_cycle_instr {d : IdEx} (hs : s.ticking = true) (hd : s.idex = some d) (h : step s = .next t) :
    ∃ i, d.op = .instr i := by
  rcases step_cycle_exmem hs h with ⟨hnone, -⟩ | ⟨d', i, hd', hop, -⟩
  · simp [hd] at hnone
  · obtain rfl : d = d' := Option.some.inj (hd.symm.trans hd')
    exact ⟨i, hop⟩

/-- A fresh fetch: the view holds the word of the instruction in Execute at its address. -/
theorem loadWord_of_fetchFresh {d : IdEx} (hd : s.idex = some d) (hfresh : s.fetchFresh = true)
    (ha : s.archView = .next a) : a.loadWord d.tPc = d.tIr := by
  simpa [State.fetchFresh, hd, ha] using hfresh

/-- With a fresh fetch the sequential machine is, on the view, at the word of the instruction in Execute. -/
theorem view_fetches {d : IdEx} (hcoherent : s.idexCoherent = true) (hd : s.idex = some d)
    (hfresh : s.fetchFresh = true) (ha : s.archView = .next a) :
    a.pcAligned = true ∧ a.inFetchRange = true ∧ decode (a.loadWord a.pc) = d.op := by
  obtain ⟨hdecode, -, -, -, hfetchable, -⟩ := (State.idexCoherent_iff hd).1 hcoherent
  obtain ⟨hpc, hparams, -⟩ := archView_next ha
  obtain ⟨haligned, hrange⟩ : d.tPc.toNat % 4 = 0 ∧ d.tPc.toNat + 4 ≤ s.params.fetchEnd := by
    simpa [State.fetchable] using hfetchable
  rw [State.nextAddr_of_instr hd] at hpc
  rw [State.pcAligned_iff, State.inFetchRange_iff, hpc, hparams, loadWord_of_fetchFresh hd hfresh ha]
  exact ⟨haligned, hrange, hdecode.symm⟩

/-- One tick with a fresh fetch is at most one step of the sequential machine on the view. -/
theorem tick_refines (hs : s.ticking = true) (hcoherent : s.coherent = true) (hfresh : s.fetchFresh = true)
    (h : step s = .next t) (ha : s.archView = .next a) {b : State} (hb : t.archView = .next b) :
    ∃ m, a = b.atCycle m ∨ step a = .next (b.atCycle m) := by
  obtain ⟨-, hidex⟩ := State.coherent_iff.1 hcoherent
  obtain rfl : ((stageWb t).emptied s.nextAddr).atCycle s.cycle = a := by
    simpa [step_cycle_archView hs h] using ha
  cases hd : s.idex with
  | none =>
    obtain rfl : (stageWb t).emptied s.nextAddr = b := by
      simpa [step_cycle_archView_of_bubble hs hd h] using hb
    exact ⟨s.cycle, .inl rfl⟩
  | some d =>
    obtain ⟨i, hop⟩ := step_cycle_instr hs hd h
    obtain ⟨haligned, hrange, hdecode⟩ := view_fetches hidex hd hfresh ha
    have hexec := exec_atCycle i ((stageWb t).emptied d.tPc) s.cycle
    rw [← step_cycle_archView_of_instr hs hidex hd hop h, hb, ← State.nextAddr_of_instr hd,
      ← stepSequential_of_decode haligned hrange (hdecode.trans hop),
      ← step_sequencing (archView_sequencing hs ha)] at hexec
    obtain ⟨m, hstep⟩ := hexec.eq_next
    exact ⟨m, .inr hstep⟩

/-- Where a run that ends with a view completes, it starts with one: a tick that completes is past its access check. -/
theorem archView_of_run {k : Nat} (hs : s.ticking = true) (hrun : Sys2Proof.core.run k s = .next t) {b : State}
    (hb : t.archView = .next b) : ∃ a, s.archView = .next a := by
  cases k with
  | zero => cases hrun; exact ⟨b, hb⟩
  | succ k =>
    obtain ⟨u, hu, -⟩ := run_succ_next.1 hrun
    exact ⟨_, step_cycle_archView hs hu⟩

/-- Runs: each tick is at most one sequential step, and what it leaves is, but for the tick counter, where the next one
starts. -/
theorem run_refines {k : Nat} {b : State} (hs : s.ticking = true) (hcoherent : s.coherent = true)
    (hrun : Sys2Proof.core.run k s = .next t)
    (hfresh : ∀ j u, j < k → Sys2Proof.core.run j s = .next u → u.fetchFresh = true)
    (ha : s.archView = .next a) (hb : t.archView = .next b) :
    ∃ n m, n ≤ k ∧ Sys2Proof.core.run n a = .next (b.atCycle m) := by
  induction k generalizing s a with
  | zero =>
    cases hrun
    cases ha.symm.trans hb
    exact ⟨0, b.cycle, le_rfl, rfl⟩
  | succ k ih =>
    obtain ⟨u, hu, hrest⟩ := run_succ_next.1 hrun
    have hsu := step_cycle_ticking hs hu
    obtain ⟨v, hv⟩ := archView_of_run hsu hrest hb
    obtain ⟨n, m, hn, hseq⟩ := ih hsu (tickKeepsCoherence s u hs hcoherent hu) hrest
      (fun j w hj hw => hfresh (j + 1) w (by omega) (run_succ_next.2 ⟨u, hu, hw⟩)) hv
    obtain ⟨-, -, hlevel, -⟩ := archView_next hv
    obtain ⟨c, hstep⟩ := tick_refines hs hcoherent (hfresh 0 s (by omega) rfl) hu ha hv
    obtain ⟨m', hseq'⟩ := run_atCycle hlevel c hseq
    rcases hstep with rfl | hstep
    · exact ⟨n, m', by omega, hseq'⟩
    · exact ⟨n + 1, m', by omega, run_succ_next.2 ⟨_, hstep, hseq'⟩⟩

/-- A coherent Fetch that halts has no instruction before it: the pc after one in Decode or Execute is aligned. -/
theorem nextAddr_of_misaligned (hcoherent : s.coherent = true) (hpc : s.pcAligned = false) : s.nextAddr = s.pc := by
  obtain ⟨hifid, hidex⟩ := State.coherent_iff.1 hcoherent
  have hmisaligned : s.pc.toNat % 4 ≠ 0 := by simpa [State.pcAligned] using hpc
  have hafter {b : Word} (hb : s.fetchable b = true) : s.pc ≠ b + 4 := by
    rintro heq
    have hb4 : b.toNat % 4 = 0 := by
      simp only [State.fetchable, Bool.and_eq_true, decide_eq_true_eq] at hb
      exact hb.1
    exact hmisaligned (heq ▸ add_four_aligned hb4)
  have hnofetched : s.ifid = none := by
    cases hf : s.ifid with
    | none => rfl
    | some f =>
      obtain ⟨-, hnpc, hpcf, hfetchable⟩ := (State.ifidCoherent_iff hf).1 hifid
      exact absurd (hpcf.trans hnpc) (hafter hfetchable)
  have hnoissued : s.idex = none := by
    cases hd : s.idex with
    | none => rfl
    | some d =>
      obtain ⟨-, -, -, -, hfetchable, -⟩ := (State.idexCoherent_iff hd).1 hidex
      have hfollow := State.followAddr_of_coherent hd hidex
      simp only [State.followAddr, hnofetched, Option.map_none, Option.getD_none] at hfollow
      exact absurd hfollow (hafter hfetchable)
  simp [State.nextAddr, hnofetched, hnoissued]

/-- An unsupported encoding in Execute is where the sequential machine faults, on the view, if its fetch was fresh. -/
theorem view_step_unsupported {d : IdEx} {w : Word} (hs : s.ticking = true) (hcoherent : s.coherent = true)
    (hd : s.idex = some d) (hop : d.op = .illegal w) (hfresh : s.fetchFresh = true) (ha : s.archView = .next a) :
    ∃ n, step a = .fault (.unsupported ⟨.EX, n, d.tPc, d.tIr⟩) := by
  obtain ⟨-, hidex⟩ := State.coherent_iff.1 hcoherent
  obtain ⟨hdecode, -⟩ := (State.idexCoherent_iff hd).1 hidex
  obtain ⟨haligned, hrange, hword⟩ := view_fetches hidex hd hfresh ha
  have hpc : a.pc = d.tPc := (archView_next ha).1.trans (State.nextAddr_of_instr hd)
  rw [step_sequencing (archView_sequencing hs ha), stepSequential_of_illegal haligned hrange (hword.trans hop), hpc,
    eq_of_decode_illegal (hdecode.symm.trans hop)]
  exact ⟨_, rfl⟩

/-- A misaligned pc at which Fetch halts is where the sequential machine faults, on the view. -/
theorem view_step_misaligned (hs : s.ticking = true) (hcoherent : s.coherent = true) (hpc : s.pcAligned = false)
    (ha : s.archView = .next a) : ∃ n, step a = .fault (.fetchMisaligned ⟨.IF, n, s.pc, 0#32⟩) := by
  have hsame : a.pc = s.pc := (archView_next ha).1.trans (nextAddr_of_misaligned hcoherent hpc)
  have hmisaligned : a.pcAligned = false := by rwa [State.pcAligned, hsame]
  rw [step_sequencing (archView_sequencing hs ha), stepSequential_of_misaligned hmisaligned, hsame]
  exact ⟨_, rfl⟩

end

end Sys2Proof.Machine

/-! ### Reset (70_reset_and_hazards.md R270) -/

namespace Sys2Proof

theorem Params.resetPc_aligned {p : Params} (h : p.wellFormed = true) : p.resetPc.toNat % 4 = 0 := by
  simp only [Params.wellFormed, Params.resetPcOk, Bool.and_eq_true, decide_eq_true_eq] at h
  obtain ⟨⟨-, hpc⟩, -⟩ := h
  exact hpc

theorem Params.standard_wellFormed : Params.standard.wellFormed = true := by decide

end Sys2Proof

namespace Sys2Proof.Machine

/-- The registers at reset, one by one. -/
theorem State.resetWith_readReg (p : Params) {r : RegIx} (hr : r ≠ 0#5) :
    (State.resetWith p).readReg r = p.gprInit[r.toNat - 1]'(by have := r.isLt; omega) := by
  have hne : r.toNat ≠ 0 := fun h => hr (BitVec.eq_of_toNat_eq h)
  rw [State.readReg, if_neg hr]
  simp only [State.resetWith_x, resetRegs, Vector.getElem_ofFn, dif_neg hne]

/-- Nothing is in the place of the hard-wired register at reset. -/
theorem State.resetWith_slot_zero (p : Params) : (State.resetWith p).x[0] = 0#32 := by
  simp [resetRegs]

theorem State.resetWith_ticking {p : Params} (h : p.wellFormed = true) : (State.resetWith p).ticking = true := by
  rw [State.ticking_iff]
  exact ⟨h, rfl, rfl⟩

theorem State.resetWith_coherent (p : Params) : (State.resetWith p).coherent = true :=
  State.coherent_iff.2 ⟨State.ifidCoherent_of_bubble rfl, State.idexCoherent_of_bubble rfl⟩

theorem State.resetWith_invariant {p : Params} (h : p.wellFormed = true) : (State.resetWith p).invariant = true := by
  have hmem := h
  simp only [Params.wellFormed, Params.memInitOk, Bool.and_eq_true] at hmem
  obtain ⟨⟨⟨-, hwf, hbelow⟩, -⟩, -⟩ := hmem
  exact (State.invariant_iff _).2 ⟨h, hwf, hbelow, State.resetWith_slot_zero p⟩

end Sys2Proof.Machine

/-! ### The end of a run (70_reset_and_hazards.md R276) -/

namespace Sys2Proof.Machine

section

variable {s t : State}

theorem State.drained_iff :
    s.drained = true ↔ s.halt = none ∧ (s.ifid = none ∧ s.idex = none ∧ s.exmem = none ∧ s.memwb = none) ∧
      s.pcAligned = true ∧ s.inFetchRange = false := by
  simp [State.drained, State.latchesEmpty, and_assoc]

/-- In a Drained state every stage passes a bubble on, and Fetch is idle. -/
theorem tick_of_drained (h : s.drained = true) : tick s = { s with cycle := s.cycle + 1 } := by
  obtain ⟨hhalt, ⟨hifid, hidex, hexmem, hmemwb⟩, haligned, hrange⟩ := State.drained_iff.1 h
  have hmem : stageMem (stageWb s) = .go s none := by simp [stageMem, stageWb_of_bubble hmemwb, hexmem]
  have hex : stageEx s = .go s (none, false) := by simp [stageEx, hidex]
  have hid : stageId s false = (none, false) := by simp [stageId, hifid]
  have hif : stageIf s false false = .go s none := by simp [stageIf, haligned, hrange]
  simp [tick, hhalt, hmem, hex, hid, hif, State.commit, ← hifid, ← hidex, ← hexmem, ← hmemwb]

/-- A bubble in Memory access: a completed tick stores nothing and leaves a bubble in Write-back. -/
theorem step_cycle_mem_of_bubble (hs : s.ticking = true) (hm : s.exmem = none) (h : step s = .next t) :
    t.mem = s.mem ∧ t.memwb = none := by
  rcases step_cycle_mem_cases hs h with ⟨-, hmem, hl⟩ | ⟨m, hm', -⟩
  · exact ⟨hmem, hl⟩
  · simp [hm] at hm'

/-- With Fetch idle and bubbles in Decode and Execute, a tick keeps all that and moves a bubble into Memory access. -/
theorem step_cycle_idle (hs : s.ticking = true) (haccess : s.accessPasses = true) (hifid : s.ifid = none)
    (hidex : s.idex = none) (haligned : s.pc.toNat % 4 = 0) (hend : s.params.fetchEnd < s.pc.toNat + 4) :
    ∃ t, step s = .next t ∧ t.ifid = none ∧ t.idex = none ∧ t.exmem = none ∧ t.pc = s.pc := by
  have hhold : s.holding = false := by simp [State.holding, State.stallRequest, hifid]
  obtain ⟨-, hidle, -⟩ := fetchStage s hs haccess (State.executePasses_of_bubble hidex)
    (State.flushing_of_bubble hidex) hhold
  obtain ⟨t, ht, hifidt, hpc⟩ := hidle haligned hend
  exact ⟨t, ht, hifidt, by simpa [hifid] using step_cycle_idex hs ht, step_cycle_exmem_of_bubble hs hidex ht, hpc⟩

end

/-! ### The first ticks (70_reset_and_hazards.md R275) -/

/-- Nothing has been written since the reset with the parameters `p`, and Write-back holds nothing to write. -/
structure State.Unwritten (p : Params) (s : State) : Prop where
  mem : s.mem = p.memInit
  x : s.x = resetRegs p
  memwb : s.memwb = none

section

variable {p : Params} {s t : State}

theorem State.resetWith_unwritten (p : Params) : (State.resetWith p).Unwritten p := ⟨rfl, rfl, rfl⟩

/-- With nothing to write back a completed tick leaves the registers as they are. -/
theorem State.Unwritten.step_x (hu : s.Unwritten p) (hs : s.ticking = true) (h : step s = .next t) :
    t.x = resetRegs p := by
  rw [step_cycle_x hs h, stageWb_of_bubble hu.memwb, hu.x]

/-- With Memory access and Write-back empty a completed tick writes nothing. -/
theorem State.Unwritten.step (hu : s.Unwritten p) (hs : s.ticking = true) (hm : s.exmem = none) (h : step s = .next t) :
    t.Unwritten p := by
  obtain ⟨hmem, hl⟩ := step_cycle_mem_of_bubble hs hm h
  exact ⟨hmem.trans hu.mem, hu.step_x hs h, hl⟩

/-- The instruction in Memory access is in Write-back after a completed tick. -/
theorem step_cycle_memwb_tPc {m : ExMem} (hs : s.ticking = true) (hm : s.exmem = some m) (h : step s = .next t) :
    ∃ l, t.memwb = some l ∧ l.tPc = m.tPc := by
  rcases step_cycle_mem_cases hs h with
    ⟨hnone, -⟩ | ⟨m', hm', ⟨-, -, hl⟩ | ⟨-, -, -, hl⟩ | ⟨-, -, -, hl⟩⟩
  · simp [hm] at hnone
  all_goals
    obtain rfl : m = m' := Option.some.inj (hm.symm.trans hm')
    exact ⟨_, hl, rfl⟩

/-- Tick 1 fetches the instruction at `RESET_PC`. -/
theorem step_reset_fetches (hwf : p.wellFormed = true) (hrange : p.resetPc.toNat + 4 ≤ p.fetchEnd) :
    ∃ t, step (State.resetWith p) = .next t ∧
      t.ifid = some ⟨readWord p.memInit p.resetPc.toNat, p.resetPc + 4, p.resetPc, readWord p.memInit p.resetPc.toNat⟩ ∧
      t.idex = none ∧ t.exmem = none ∧ t.pc = p.resetPc + 4 ∧ t.Unwritten p := by
  have hs := State.resetWith_ticking hwf
  obtain ⟨-, -, hfetch⟩ := fetchStage (State.resetWith p) hs rfl rfl rfl rfl
  obtain ⟨-, t, ht, hpc, hifid⟩ := hfetch (Params.resetPc_aligned hwf) hrange
  have hu := (State.resetWith_unwritten p).step hs rfl ht
  rw [hu.mem] at hifid
  exact ⟨t, ht, hifid, step_cycle_idex hs ht, step_cycle_exmem_of_bubble hs rfl ht, hpc, hu⟩

/-- Tick 2 decodes it: nothing is in flight that it could wait for. -/
theorem step_cycle_decodes {f : IfId} (hs : s.ticking = true) (hf : s.ifid = some f) (hd : s.idex = none)
    (hm : s.exmem = none) (haligned : s.pc.toNat % 4 = 0) :
    ∃ t, step s = .next t ∧ t.idex = some (t.issue f) ∧ t.exmem = none ∧
      (s.pc.toNat + 4 ≤ s.params.fetchEnd → ∃ g, t.ifid = some g ∧ g.tPc = s.pc) := by
  have hflush : s.flushing = false := State.flushing_of_bubble hd
  have hhold : s.holding = false := by
    simp [State.holding, State.stallRequest, hf, State.hazard, State.hazardEx, State.hazardMem, hd, hm]
  have hpc : s.pcAligned = true := s.pcAligned_iff.2 haligned
  obtain ⟨t, ht⟩ := step_cycle_completes hs (State.accessPasses_of_bubble hm) (State.executePasses_of_bubble hd)
    (by simp [State.fetchPasses, hpc])
  refine ⟨t, ht, by simpa [hflush, hhold, hf] using step_cycle_idex hs ht, step_cycle_exmem_of_bubble hs hd ht,
    fun hrange => ?_⟩
  have hfetching : s.fetching = true := s.fetching_iff.2 ⟨hflush, hhold, hpc, s.inFetchRange_iff.2 hrange⟩
  exact ⟨_, step_cycle_fetched hs hfetching ht, rfl⟩

end

end Sys2Proof.Machine

/-! ### The obligations of 70_reset_and_hazards.md -/

section

open Sys2Proof Sys2Proof.Machine

/-- Settles O56: but for the tick counter, which no instruction reads, the view after the tick is the instruction's
effect on the view before it. -/
theorem tickPerformsExecutedInstruction : Obligations.TickPerformsExecutedInstruction := by
  intro s t d i hs hcoherent hd hop h
  obtain ⟨-, hidex⟩ := State.coherent_iff.1 hcoherent
  refine ⟨_, step_cycle_archView hs h, ?_⟩
  rw [State.nextAddr_of_instr hd, step_cycle_archView_of_instr hs hidex hd hop h]
  exact (exec_atCycle i _ _).sameOutcome

/-- Settles O59: each tick is at most one sequential step, by induction on the run. -/
theorem pipelineRefinesSequentialMachine : Obligations.PipelineRefinesSequentialMachine := by
  intro k s t a b hs hcoherent hrun hfresh ha hb
  obtain ⟨n, m, hn, hseq⟩ := run_refines hs hcoherent hrun hfresh ha hb
  exact ⟨n, _, hn, hseq, b.sameArch_atCycle m⟩

/-- Settles O27: the tests of a sequential step in their order; an unsupported encoding is its raw word. -/
theorem sequentialStep : Obligations.SequentialStep := by
  intro s hs
  rw [step_sequencing hs]
  refine ⟨fun hmisaligned => ?_, fun haligned hend => ?_, fun haligned hrange => ⟨fun i hi => ?_, fun w hw => ?_⟩⟩
  · exact stepSequential_of_misaligned (by simpa [State.pcAligned] using hmisaligned)
  · exact stepSequential_of_stop (s.pcAligned_iff.2 haligned) (by simpa [State.inFetchRange] using hend)
  · exact stepSequential_of_decode (s.pcAligned_iff.2 haligned) (s.inFetchRange_iff.2 hrange) hi
  · rw [← eq_of_decode_illegal hw]
    exact stepSequential_of_illegal (s.pcAligned_iff.2 haligned) (s.inFetchRange_iff.2 hrange) hw

/-- Settles O47: the tick passes bubbles on. -/
theorem drainedTickOnlyCounts : Obligations.DrainedTickOnlyCounts := by
  intro s hs hdrained
  obtain ⟨hhalt, -⟩ := State.drained_iff.1 hdrained
  rw [step_ticking hs, tick_of_drained hdrained]
  simp [haltOutcome, hhalt]

/-- Settles O48: the first tick empties Memory access, the second Write-back. -/
theorem idleCoreDrainsInTwoTicks : Obligations.IdleCoreDrainsInTwoTicks := by
  intro s hs haccess hifid hidex haligned hend
  obtain ⟨t, ht, htifid, htidex, htexmem, htpc⟩ := step_cycle_idle hs haccess hifid hidex haligned hend
  have hst := step_cycle_ticking hs ht
  have htend : t.params.fetchEnd < t.pc.toNat + 4 := by rwa [(parametersNeverChange s t ht).1, htpc]
  obtain ⟨u, hu, huifid, huidex, huexmem, hupc⟩ := step_cycle_idle hst (State.accessPasses_of_bubble htexmem) htifid
    htidex (htpc ▸ haligned) htend
  obtain ⟨-, humemwb⟩ := step_cycle_mem_of_bubble hst htexmem hu
  obtain ⟨-, huhalt, -⟩ := u.ticking_iff.1 (step_cycle_ticking hst hu)
  have huend : u.inFetchRange = false := by simp [State.inFetchRange, (parametersNeverChange t u hu).1, hupc, htend]
  refine ⟨t, u, ht, hu, State.drained_iff.2 ⟨huhalt, ⟨huifid, huidex, huexmem, humemwb⟩, ?_, huend⟩, hupc.trans htpc⟩
  rwa [State.pcAligned_iff, hupc, htpc]

/-- Settles O50: the first instruction moves on by one stage in each tick, and nothing is before it that could write. -/
theorem firstTicks : Obligations.FirstTicks := by
  intro p hwf hrange
  have hs := State.resetWith_ticking hwf
  obtain ⟨t1, h1, hifid, hidex, hexmem, hpc, hu1⟩ := step_reset_fetches hwf hrange
  have hs1 := step_cycle_ticking hs h1
  have hparams : t1.params = p := (parametersNeverChange _ _ h1).1
  have haligned : t1.pc.toNat % 4 = 0 := hpc ▸ add_four_aligned (Params.resetPc_aligned hwf)
  obtain ⟨t2, h2, hidex2, hexmem2, hfetch2⟩ := step_cycle_decodes hs1 hifid hidex hexmem haligned
  have hs2 := step_cycle_ticking hs1 h2
  have hu2 := hu1.step hs1 hexmem h2
  have hrun2 : Sys2Proof.core.run 2 (State.resetWith p) = .next t2 :=
    run_succ_next.2 ⟨t1, h1, run_succ_next.2 ⟨t2, h2, rfl⟩⟩
  have hthird {t : State} (h : Sys2Proof.core.run 3 (State.resetWith p) = .next t) :
      t.ticking = true ∧ (∃ m, t.exmem = some m ∧ m.tPc = p.resetPc) ∧ t.Unwritten p := by
    obtain ⟨u, hu, h3⟩ := run_succ_last h
    cases hrun2.symm.trans hu
    obtain ⟨i, hop⟩ := step_cycle_instr hs2 hidex2 h3
    exact ⟨step_cycle_ticking hs2 h3, ⟨_, step_cycle_exmem_of_instr hs2 hidex2 hop h3, rfl⟩, hu2.step hs2 hexmem2 h3⟩
  refine ⟨⟨t1, h1, hifid, hidex, hexmem, hu1.memwb⟩,
    ⟨t2, _, hrun2, hidex2, rfl, hexmem2, hu2.memwb, fun hnext => ?_⟩, fun t => ⟨fun h => ?_, fun h => ?_⟩⟩
  · rw [hpc, hparams] at hfetch2
    exact hfetch2 (by bv_omega)
  · obtain ⟨-, hexmem3, hu3⟩ := hthird h
    exact ⟨hexmem3, hu3.memwb, hu3.mem, hu3.x⟩
  · obtain ⟨u, hu, h4⟩ := run_succ_last h
    obtain ⟨hs3, ⟨m, hm, htPc⟩, hu3⟩ := hthird hu
    obtain ⟨l, hl, hlPc⟩ := step_cycle_memwb_tPc hs3 hm h4
    exact ⟨⟨l, hl, hlPc.trans htPc⟩, hu3.step_x hs3 h4⟩

/-- Settles O57: the views before and after the tick differ in the tick counter alone. -/
theorem bubbleTickKeepsView : Obligations.BubbleTickKeepsView := by
  intro s t hs _ hd h
  rw [step_cycle_archView hs h, step_cycle_archView_of_bubble hs hd h]
  exact (SameButCycle.next _ s.cycle).sameOutcome

/-- Settles O58: an access that halts is the view's own fault; past it, the view is at the unsupported word or at the
misaligned pc, where the sequential machine faults. -/
theorem haltIsTheSequentialFault : Obligations.HaltIsTheSequentialFault := by
  intro s f hs hcoherent hfresh h
  have hfault := (step_cycle_fault_iff hs f).1 h
  rcases archView_cases s with ⟨hpasses, s2, l, -, ha⟩ | ⟨g, hg, hview⟩
  · rcases State.haltFault_cases hfault with
      ⟨m, -, hfails, -⟩ | ⟨d, w, hd, hop, rfl⟩ | ⟨hfails, rfl⟩
    · simp [hpasses] at hfails
    · obtain ⟨n, hstep⟩ := view_step_unsupported hs hcoherent hd hop hfresh ha
      exact .inr ⟨_, _, ha, hstep, by simp [Fault.sameError, Fault.cause, Fault.diagnostic]⟩
    · obtain ⟨-, -, hmisaligned⟩ := s.fetchPasses_eq_false_iff.1 hfails
      obtain ⟨n, hstep⟩ := view_step_misaligned hs hcoherent hmisaligned ha
      exact .inr ⟨_, _, ha, hstep, by simp [Fault.sameError, Fault.cause, Fault.diagnostic]⟩
  · obtain rfl : f = g := Option.some.inj (hfault.symm.trans hg)
    exact .inl ⟨f, hview, f.sameError_refl⟩

/-- Settles O26: the four bytes at the pc are the word that the step reads. -/
theorem stepRunsDecodedInstruction : Obligations.StepRunsDecodedInstruction := by
  intro s i hs haligned hrange hbytes
  have hdecode : decode (s.loadWord s.pc) = .instr i := decode_of_decodeBytes hbytes
  rw [step_sequencing hs]
  exact stepSequential_of_decode (s.pcAligned_iff.2 haligned) (s.inFetchRange_iff.2 hrange) hdecode

/-- Settles O49: reset asserted in a state is the reset state of that state's parameters, but for the level. -/
theorem resetEstablishes : Obligations.ResetEstablishes := by
  intro p s
  refine ⟨rfl, State.resetWith_slot_zero p, fun r hr => State.resetWith_readReg p hr, rfl, rfl, rfl, rfl, rfl, rfl, rfl,
    rfl, ?_⟩
  rintro u rfl
  exact ⟨rfl, rfl, rfl, rfl, rfl, rfl, rfl, rfl, rfl⟩

/-- Settles O53: well-formed parameters are the invariant's own premises, and the register at 0 is set to zero. -/
theorem invariantAtReset : Obligations.InvariantAtReset :=
  ⟨State.resetWith_invariant Params.standard_wellFormed, fun _ => State.resetWith_invariant⟩

/-- Settles O55: no record, the normative level, and bubbles in the two latches that coherence speaks of. -/
theorem coherentAtReset : Obligations.CoherentAtReset :=
  ⟨State.resetWith_ticking Params.standard_wellFormed,
    fun p hwf => ⟨State.resetWith_ticking hwf, State.resetWith_coherent p⟩⟩

end
